-- ==== Sys2Proof/Word.lean ====
section
/-! DEFINITION. The word types of the block: 8-bit data, 16-bit addresses and instruction words, and the instruction
fields (00_scope.md R11, R12). All values are unsigned (R13). -/

namespace Sys2Proof

/-- A register or memory byte (R11). -/
abbrev Byte := BitVec 8

/-- An address register value: `PC`, `I`, a stack entry (R11; the 16 bits of `PC` are the spec's decision D26). -/
abbrev Addr := BitVec 16

/-- An instruction word (R70). -/
abbrev Word := BitVec 16

/-- A 4-bit instruction field: `x`, `y`, `n`, or a hex key index (R71). -/
abbrev Nibble := BitVec 4

/-- The 12-bit immediate address field `nnn` (R71). -/
abbrev Imm12 := BitVec 12

/-- The index of `VF`, register 15 (R21). -/
abbrev VF : Nibble := 0xF#4

end Sys2Proof
end

