-- ==== Sys2Proof/Syntax.lean ====
section
/-! DEFINITION. The 35 operations of 30_encoding.md R80, one constructor for each row of spec/opcode_table.json, each with
the fields of its word that the row names (R71). -/

namespace Sys2Proof

/-- An operation with its operand fields. -/
inductive Instr where
  /-- `00E0` CLS, R162. -/
  | cls
  /-- `00EE` RET, R101. -/
  | ret
  /-- `0nnn` (other) SYS nnn, R102. -/
  | sys (nnn : Imm12)
  /-- `1nnn` JP nnn, R103. -/
  | jp (nnn : Imm12)
  /-- `2nnn` CALL nnn, R104. -/
  | call (nnn : Imm12)
  /-- `3xnn` SE Vx, nn, R105. -/
  | seImm (x : Nibble) (nn : Byte)
  /-- `4xnn` SNE Vx, nn, R106. -/
  | sneImm (x : Nibble) (nn : Byte)
  /-- `5xy0` SE Vx, Vy, R107. -/
  | seReg (x y : Nibble)
  /-- `6xnn` LD Vx, nn, R123. -/
  | ldImm (x : Nibble) (nn : Byte)
  /-- `7xnn` ADD Vx, nn, R124. -/
  | addImm (x : Nibble) (nn : Byte)
  /-- `8xy0` LD Vx, Vy, R125. -/
  | ldReg (x y : Nibble)
  /-- `8xy1` OR Vx, Vy, R126. -/
  | orReg (x y : Nibble)
  /-- `8xy2` AND Vx, Vy, R127. -/
  | andReg (x y : Nibble)
  /-- `8xy3` XOR Vx, Vy, R128. -/
  | xorReg (x y : Nibble)
  /-- `8xy4` ADD Vx, Vy, R129. -/
  | addReg (x y : Nibble)
  /-- `8xy5` SUB Vx, Vy, R130. -/
  | subReg (x y : Nibble)
  /-- `8xy6` SHR Vx, R131; `y` is not used but may be anything (R78). -/
  | shr (x y : Nibble)
  /-- `8xy7` SUBN Vx, Vy, R132. -/
  | subnReg (x y : Nibble)
  /-- `8xyE` SHL Vx, R133; `y` is not used but may be anything (R78). -/
  | shl (x y : Nibble)
  /-- `9xy0` SNE Vx, Vy, R108. -/
  | sneReg (x y : Nibble)
  /-- `Annn` LD I, nnn, R141. -/
  | ldI (nnn : Imm12)
  /-- `Bnnn` JP V0, nnn, R109. -/
  | jpV0 (nnn : Imm12)
  /-- `Cxnn` RND Vx, nn, R134. -/
  | rnd (x : Nibble) (nn : Byte)
  /-- `Dxyn` DRW Vx, Vy, n, R163. -/
  | drw (x y n : Nibble)
  /-- `Ex9E` SKP Vx, R181. -/
  | skp (x : Nibble)
  /-- `ExA1` SKNP Vx, R182. -/
  | sknp (x : Nibble)
  /-- `Fx07` LD Vx, DT, R183. -/
  | ldVxDt (x : Nibble)
  /-- `Fx0A` LD Vx, K, R184. -/
  | ldVxK (x : Nibble)
  /-- `Fx15` LD DT, Vx, R185. -/
  | ldDtVx (x : Nibble)
  /-- `Fx18` LD ST, Vx, R186. -/
  | ldStVx (x : Nibble)
  /-- `Fx1E` ADD I, Vx, R142. -/
  | addI (x : Nibble)
  /-- `Fx29` LD F, Vx, R143. -/
  | ldF (x : Nibble)
  /-- `Fx33` LD B, Vx, R145. -/
  | ldB (x : Nibble)
  /-- `Fx55` LD [I], Vx, R146. -/
  | ldMemVx (x : Nibble)
  /-- `Fx65` LD Vx, [I], R147. -/
  | ldVxMem (x : Nibble)
deriving DecidableEq, Repr

end Sys2Proof
end

