-- ==== Sys2Proof/Decode.lean ====
section
/-! DEFINITION. The decoder of 30_encoding.md R75, total on every word and on any bytes, and after it the encoder, written
from the same opcode map (R73, R74, R80). The bit patterns other than `00EE`, `6xnn`, `7xnn` are general knowledge in the
spec (G1, G2; log entry 20). -/

namespace Sys2Proof

/-- Why bytes are not an instruction. -/
inductive DecodeError where
  /-- Fewer than the two bytes of a word. -/
  | truncated
  /-- A word of the illegal space (R76): "unhandled nibble combination". -/
  | unknownOpcode (w : Word)
deriving DecidableEq, Repr

/-- `a = w[15:12]` (R71). -/
def fieldA (w : Word) : Nibble := w.extractLsb' 12 4

/-- `x = w[11:8]` (R71). -/
def fieldX (w : Word) : Nibble := w.extractLsb' 8 4

/-- `y = w[7:4]` (R71). -/
def fieldY (w : Word) : Nibble := w.extractLsb' 4 4

/-- `n = w[3:0]` (R71). -/
def fieldN (w : Word) : Nibble := w.extractLsb' 0 4

/-- `nn = w[7:0]` (R71). -/
def fieldNN (w : Word) : Byte := w.extractLsb' 0 8

/-- `nnn = w[11:0]` (R71). -/
def fieldNNN (w : Word) : Imm12 := w.extractLsb' 0 12

/-- Group 0 (R73, R75): clear, return, or a native call. -/
def decodeGroup0 (nnn : Imm12) : Instr :=
  if nnn = 0x0E0#12 then .cls else if nnn = 0x0EE#12 then .ret else .sys nnn

/-- Group 8 by `n` (R74). -/
def decodeGroup8 (x y n : Nibble) : Option Instr :=
  match n.toNat with
  | 0x0 => some (.ldReg x y)
  | 0x1 => some (.orReg x y)
  | 0x2 => some (.andReg x y)
  | 0x3 => some (.xorReg x y)
  | 0x4 => some (.addReg x y)
  | 0x5 => some (.subReg x y)
  | 0x6 => some (.shr x y)
  | 0x7 => some (.subnReg x y)
  | 0xE => some (.shl x y)
  | _ => none

/-- Group E by `nn` (R74). -/
def decodeGroupE (x : Nibble) (nn : Byte) : Option Instr :=
  match nn.toNat with
  | 0x9E => some (.skp x)
  | 0xA1 => some (.sknp x)
  | _ => none

/-- Group F by `nn` (R74). -/
def decodeGroupF (x : Nibble) (nn : Byte) : Option Instr :=
  match nn.toNat with
  | 0x07 => some (.ldVxDt x)
  | 0x0A => some (.ldVxK x)
  | 0x15 => some (.ldDtVx x)
  | 0x18 => some (.ldStVx x)
  | 0x1E => some (.addI x)
  | 0x29 => some (.ldF x)
  | 0x33 => some (.ldB x)
  | 0x55 => some (.ldMemVx x)
  | 0x65 => some (.ldVxMem x)
  | _ => none

/-- The opcode map by major group `a` (R73, R75); `none` is the illegal space (R76). The last arm is group F. -/
def decodeWord? (w : Word) : Option Instr :=
  match (fieldA w).toNat with
  | 0x0 => some (decodeGroup0 (fieldNNN w))
  | 0x1 => some (.jp (fieldNNN w))
  | 0x2 => some (.call (fieldNNN w))
  | 0x3 => some (.seImm (fieldX w) (fieldNN w))
  | 0x4 => some (.sneImm (fieldX w) (fieldNN w))
  | 0x5 => if fieldN w = 0#4 then some (.seReg (fieldX w) (fieldY w)) else none
  | 0x6 => some (.ldImm (fieldX w) (fieldNN w))
  | 0x7 => some (.addImm (fieldX w) (fieldNN w))
  | 0x8 => decodeGroup8 (fieldX w) (fieldY w) (fieldN w)
  | 0x9 => if fieldN w = 0#4 then some (.sneReg (fieldX w) (fieldY w)) else none
  | 0xA => some (.ldI (fieldNNN w))
  | 0xB => some (.jpV0 (fieldNNN w))
  | 0xC => some (.rnd (fieldX w) (fieldNN w))
  | 0xD => some (.drw (fieldX w) (fieldY w) (fieldN w))
  | 0xE => decodeGroupE (fieldX w) (fieldNN w)
  | _ => decodeGroupF (fieldX w) (fieldNN w)

/-- `Decode(w)` (R75): one of the 35 operations, or the illegal word by name. A native call decodes to `sys`, whose
meaning takes the fault of R102. -/
def decodeWord (w : Word) : Except DecodeError Instr :=
  match decodeWord? w with
  | some i => .ok i
  | none => .error (.unknownOpcode w)

/-- The word of two consecutive bytes: big-endian, `(byte0 << 8) | byte1` (R54, R57, R70). -/
def wordOfBytes (b0 b1 : Byte) : Word := b0 ++ b1

/-- The bytes of a word in address order (R57). -/
def bytesOfWord (w : Word) : List Byte := [w.extractLsb' 8 8, w.extractLsb' 0 8]

/-- Decode the instruction at the head of a list of bytes; gives the rest of the list (R70: every instruction is one
word). -/
def decode : List Byte → Except DecodeError (Instr × List Byte)
  | b0 :: b1 :: rest =>
    match decodeWord (wordOfBytes b0 b1) with
    | .ok i => .ok (i, rest)
    | .error e => .error e
  | _ => .error .truncated

/-- The word with fields `a`, `nnn` (R71). -/
def wordNNN (a : Nibble) (nnn : Imm12) : Word := a ++ nnn

/-- The word with fields `a`, `x`, `nn` (R71). -/
def wordXNN (a x : Nibble) (nn : Byte) : Word := a ++ x ++ nn

/-- The word with fields `a`, `x`, `y`, `n` (R71). -/
def wordXYN (a x y n : Nibble) : Word := a ++ x ++ y ++ n

/-- The word of an instruction (R80, spec/opcode_table.json). -/
def encode (i : Instr) : Word :=
  match i with
  | .cls => 0x00E0#16
  | .ret => 0x00EE#16
  | .sys nnn => wordNNN 0x0#4 nnn
  | .jp nnn => wordNNN 0x1#4 nnn
  | .call nnn => wordNNN 0x2#4 nnn
  | .seImm x nn => wordXNN 0x3#4 x nn
  | .sneImm x nn => wordXNN 0x4#4 x nn
  | .seReg x y => wordXYN 0x5#4 x y 0x0#4
  | .ldImm x nn => wordXNN 0x6#4 x nn
  | .addImm x nn => wordXNN 0x7#4 x nn
  | .ldReg x y => wordXYN 0x8#4 x y 0x0#4
  | .orReg x y => wordXYN 0x8#4 x y 0x1#4
  | .andReg x y => wordXYN 0x8#4 x y 0x2#4
  | .xorReg x y => wordXYN 0x8#4 x y 0x3#4
  | .addReg x y => wordXYN 0x8#4 x y 0x4#4
  | .subReg x y => wordXYN 0x8#4 x y 0x5#4
  | .shr x y => wordXYN 0x8#4 x y 0x6#4
  | .subnReg x y => wordXYN 0x8#4 x y 0x7#4
  | .shl x y => wordXYN 0x8#4 x y 0xE#4
  | .sneReg x y => wordXYN 0x9#4 x y 0x0#4
  | .ldI nnn => wordNNN 0xA#4 nnn
  | .jpV0 nnn => wordNNN 0xB#4 nnn
  | .rnd x nn => wordXNN 0xC#4 x nn
  | .drw x y n => wordXYN 0xD#4 x y n
  | .skp x => wordXNN 0xE#4 x 0x9E#8
  | .sknp x => wordXNN 0xE#4 x 0xA1#8
  | .ldVxDt x => wordXNN 0xF#4 x 0x07#8
  | .ldVxK x => wordXNN 0xF#4 x 0x0A#8
  | .ldDtVx x => wordXNN 0xF#4 x 0x15#8
  | .ldStVx x => wordXNN 0xF#4 x 0x18#8
  | .addI x => wordXNN 0xF#4 x 0x1E#8
  | .ldF x => wordXNN 0xF#4 x 0x29#8
  | .ldB x => wordXNN 0xF#4 x 0x33#8
  | .ldMemVx x => wordXNN 0xF#4 x 0x55#8
  | .ldVxMem x => wordXNN 0xF#4 x 0x65#8

/-- The word that spec/opcode_table.json numbers: `nbits` bits of `w`, every bit above them 0. -/
def tableWord (nbits w : Nat) : Word := BitVec.ofNat 16 (w % 2 ^ nbits)

/-- The instruction the decoder reads from the bytes of a word, laid out as the hardware stores them (R54, R57). -/
def decodeTableWord (nbits w : Nat) : Option Instr :=
  match decode (bytesOfWord (tableWord nbits w)) with
  | .ok (i, _) => some i
  | .error _ => none

end Sys2Proof
end

