-- ==== Sys2Proof/Config.lean ====
section
/-! DEFINITION. The implementation parameters of 00_scope.md R10, each a named parameter of the model (R9), and the free
values of a step (10_state.md R41, R42, R43). The defaults are in Sys2Proof/Machine/Defaults.lean. -/

namespace Sys2Proof

/-- `ODD_PC_POLICY` (R10, decision D6): what a fetch at an odd `PC` does. -/
inductive OddPcPolicy where
  | fault
  | fetch
deriving DecidableEq, Repr

/-- `FONT_WRITE_POLICY` (R10, decision D7): what a store into the font region does. -/
inductive FontWritePolicy where
  | fault
  | write
deriving DecidableEq, Repr

/-- `KEY_INDEX_POLICY` (R10, decision D11): what a key index of 16 or more does. -/
inductive KeyIndexPolicy where
  | fault
  | mask
deriving DecidableEq, Repr

/-- `VF_DEST_POLICY` (R10, decision D9): which value `VF` keeps when it is both destination and flag. -/
inductive VfDestPolicy where
  | flagLast
  | resultLast
deriving DecidableEq, Repr

/-- `RESET_REG_POLICY` (R10, decision D14): whether a register that nothing has written may be read. -/
inductive ResetRegPolicy where
  | zero
  | unwrittenFaults
deriving DecidableEq, Repr

/-- The parameters of one instance of the block, fixed for its life (R9, R10). `CLOCK_HZ` is OPEN in the spec and is an
argument of the ideal schedule only (decision D17). -/
structure Config where
  /-- `MEM_SIZE`: bytes of memory. -/
  memSize : Nat
  /-- `PROG_ORIGIN`: load address of the ROM and first `PC`. -/
  progOrigin : Nat
  /-- `PROGRAM_END`: one past the last byte a ROM may occupy. -/
  programEnd : Nat
  /-- `FONT_BASE`: address of glyph 0. -/
  fontBase : Nat
  /-- `GLYPH_BYTES`: bytes of one glyph. -/
  glyphBytes : Nat
  /-- `FONT`: the bytes of the 16 glyphs, in address order. -/
  font : List Byte
  /-- `STACK_DEPTH`: capacity of the call stack. -/
  stackDepth : Nat
  /-- `DISP_W`: display width in pixels. -/
  dispW : Nat
  /-- `DISP_H`: display height in pixels. -/
  dispH : Nat
  /-- `FRAME_HZ`: rate of the frame tick; timing only. -/
  frameHz : Nat
  oddPc : OddPcPolicy
  fontWrite : FontWritePolicy
  keyIndex : KeyIndexPolicy
  vfDest : VfDestPolicy
  resetReg : ResetRegPolicy
deriving DecidableEq, Repr

/-- Bytes of the whole font: `16 * GLYPH_BYTES` (R53, R233). -/
def Config.fontBytes (c : Config) : Nat := 16 * c.glyphBytes

/-- The parameters fit together: memory fits the 16-bit `PC` (R11, R26), the font fits memory and has its 16 glyphs, the
program region lies in memory, and the stack has the source's least depth (R27). -/
abbrev Config.Wf (c : Config) : Prop :=
  c.memSize ≤ 65536 ∧ c.fontBase + c.fontBytes ≤ c.memSize ∧ c.font.length = c.fontBytes ∧
    c.progOrigin < c.programEnd ∧ c.programEnd ≤ c.memSize ∧ 16 ≤ c.stackDepth

/-- FREE VALUE: the key vector sampled at the `k`-th opcode tick whose inputs no event gives (R41; log entry 6). -/
opaque Config.freeKeys : Nat → Vector Bool 16

/-- FREE VALUE: the byte `RAND` drawn for the `k`-th such tick, under no law (R42; log entry 5). -/
opaque Config.freeRand : Nat → Byte

/-- FREE VALUE: which of the keys down is reported at the `k`-th such tick (R43; log entry 7). -/
opaque Config.freePick : Nat → Nat

end Sys2Proof
end

