-- ==== Sys2Proof/Machine/Defaults.lean ====
section
/-! DEFINITION. The default value of every parameter (00_scope.md R10) and the default font (20_memory.md R56). -/

namespace Sys2Proof.Machine

/-- Glyphs 0 to 7 of the default font (R56; general knowledge in the spec, G4; log entry 19). -/
def defaultFontLow : List Byte :=
  [0xF0, 0x90, 0x90, 0x90, 0xF0] ++ [0x20, 0x60, 0x20, 0x20, 0x70] ++
  [0xF0, 0x10, 0xF0, 0x80, 0xF0] ++ [0xF0, 0x10, 0xF0, 0x10, 0xF0] ++
  [0x90, 0x90, 0xF0, 0x10, 0x10] ++ [0xF0, 0x80, 0xF0, 0x10, 0xF0] ++
  [0xF0, 0x80, 0xF0, 0x90, 0xF0] ++ [0xF0, 0x10, 0x20, 0x40, 0x40]

/-- Glyphs 8 to F of the default font (R56). -/
def defaultFontHigh : List Byte :=
  [0xF0, 0x90, 0xF0, 0x90, 0xF0] ++ [0xF0, 0x90, 0xF0, 0x10, 0xF0] ++
  [0xF0, 0x90, 0xF0, 0x90, 0x90] ++ [0xE0, 0x90, 0xE0, 0x90, 0xE0] ++
  [0xF0, 0x80, 0x80, 0x80, 0xF0] ++ [0xE0, 0x90, 0x90, 0x90, 0xE0] ++
  [0xF0, 0x80, 0xF0, 0x80, 0xF0] ++ [0xF0, 0x80, 0xF0, 0x80, 0x80]

/-- `FONT`: the 80 bytes of the default font (R56). -/
def defaultFont : List Byte := defaultFontLow ++ defaultFontHigh

/-- The default parameters (R10; log entry 2). -/
def defaultConfig : Config where
  memSize := 4096
  progOrigin := 0x200
  programEnd := 4096
  fontBase := 0
  glyphBytes := 5
  font := defaultFont
  stackDepth := 16
  dispW := 64
  dispH := 32
  frameHz := 60
  oddPc := .fault
  fontWrite := .fault
  keyIndex := .fault
  vfDest := .flagLast
  resetReg := .zero

end Sys2Proof.Machine
end

