-- ==== Sys2Proof/Machine/State.lean ====
section
/-! DEFINITION. The state of the block as plain data: everything 10_state.md gives it, its parameters, the events still to
come and the events it has emitted; the reasons a step can stop; and the state after reset. -/

namespace Sys2Proof.Machine

/-- Memory: the bytes that differ from the load contents, as (address, byte), addresses strictly rising (R50, R55). -/
abbrev Memory := List Host.Cell

/-- The display buffer `DISP`: rows from the top, each a list of pixels from the left (R30). -/
abbrev Display := List (List Bool)

/-- The key-state vector `KEYS` (R41). -/
abbrev Keys := Vector Bool 16

/-- The kinds of execution fault (R220). -/
inductive FaultKind where
  | unknownOpcode
  | nativeCallUnsupported
  | stackOverflow
  | memoryOutOfRange
  | misalignedFetch
  | keyIndexOutOfRange
  | fontRegionWrite
  | unwrittenRead
deriving DecidableEq, Repr

/-- What a fault records (R201): its kind, the opcode word (none for a fetch fault), the fetch address, and the failing
byte address (none where the kind has none). -/
structure FaultRecord where
  kind : FaultKind
  word : Option Word
  addr : Addr
  ea : Option Nat
deriving DecidableEq, Repr

/-- `HALT` (R38). -/
inductive Halt where
  | running
  | faulted (r : FaultRecord)
  | quit
deriving DecidableEq, Repr

/-- The inputs of one opcode tick (R41, R42, R43). `pick` selects which of the keys down `choose_pressed()` reports, so that
every answer R43 allows, and no other, is some `pick`'s (log entry 7). -/
structure Inputs where
  keys : Keys
  rand : Byte
  pick : Nat
deriving DecidableEq, Repr

/-- The events the block receives (R40). -/
inductive Event where
  | opcodeTick (inputs : Inputs)
  | frameTick
  | quit
deriving DecidableEq, Repr

/-- The events the block emits (R40). -/
inductive Output where
  | present (disp : Display)
  | setTone (on : Bool)
  | fault (r : FaultRecord)
deriving DecidableEq, Repr

/-- The clock state (R36): elapsed time and the two due times, in units of 1/(FRAME_HZ*CLOCK_HZ) second (log entry 25). -/
structure Clock where
  elapsed : Nat
  opcodeDue : Nat
  frameDue : Nat
deriving DecidableEq, Repr

/-- Which registers have been written since load (R34, R207): read only under `RESET_REG_POLICY = unwritten_faults`. -/
structure Written where
  v : Vector Bool 16
  i : Bool
  dt : Bool
  st : Bool
deriving DecidableEq, Repr

/-- The state of the block. -/
structure State where
  /-- The parameters of this instance (R10); no step changes them. -/
  cfg : Config
  /-- `V[0]` .. `V[15]` (R20). -/
  v : Vector Byte 16
  /-- `I` (R23). -/
  i : Addr
  /-- `PC` (R24). -/
  pc : Addr
  /-- `STACK`, top at the end (R14, R27). -/
  stack : List Addr
  /-- `DT` (R29). -/
  dt : Byte
  /-- `ST` (R29). -/
  st : Byte
  /-- `DISP` (R30). -/
  disp : Display
  /-- `DIRTY` (R31). -/
  dirty : Bool
  /-- `TONE` (R37). -/
  tone : Bool
  /-- The memory (R50). -/
  mem : Memory
  /-- `HALT` (R38). -/
  halt : Halt
  /-- The clock state (R36). -/
  clock : Clock
  /-- Which registers hold a value under `unwritten_faults` (R34). -/
  written : Written
  /-- The inputs sampled for the current opcode tick (R41 to R43); none: the free values at `draws` (log entry 5). -/
  sample : Option Inputs
  /-- The model's own: the events still to be delivered, oldest first (R40, R241; log entry 4). -/
  pending : List Event
  /-- The model's own: how many opcode ticks have drawn free inputs (log entry 5). -/
  draws : Nat
  /-- The model's own: the events emitted so far, oldest first (R40; log entry 9). -/
  outputs : List Output
deriving DecidableEq, Repr

/-- Why a step gives no next state. Both are raised by `step` alone, in a block that is not running (R38: "no step or frame
tick occurs"); no instruction's meaning raises one. Safe: the machine stops where the block has stopped (log entry 8). -/
inductive Fault where
  /-- `step`, when an execution fault has ended the instance (R200, R201); it carries the fault's record. Safe. -/
  | faulted (r : FaultRecord)
  /-- `step`, when the host's quit has ended the instance (R217). Safe. -/
  | quit
deriving DecidableEq, Repr

/-- Why an instruction has no meaning. -/
inductive Refusal where
  /-- Raised by an arm of `exec` for an instruction not modelled yet; no arm raises it now. Safe. -/
  | notModelled (mnemonic : String)
deriving DecidableEq, Repr

/-- Nothing has been written since load (R34). -/
def Written.none : Written where
  v := Vector.replicate 16 false
  i := false
  dt := false
  st := false

/-- The value of every piece of state after the load of an empty ROM (R34, R233): registers, timers, `DISP`, `DIRTY` and
`TONE` are 0 by the spec's decision D14 (log entry 1); nothing pending, drawn or emitted (log entries 4, 5, 9). -/
def State.initial (c : Config) : State where
  cfg := c
  v := Vector.replicate 16 0#8
  i := 0#16
  pc := BitVec.ofNat 16 c.progOrigin
  stack := []
  dt := 0#8
  st := 0#8
  disp := List.replicate c.dispH (List.replicate c.dispW false)
  dirty := false
  tone := false
  mem := []
  halt := .running
  clock := ⟨0, 0, 0⟩
  written := Written.none
  sample := none
  pending := []
  draws := 0
  outputs := []

/-- The block right after reset: its load with an empty ROM and the default parameters (R233, R235). -/
def State.reset : State := State.initial defaultConfig

end Sys2Proof.Machine
end

