-- ==== Sys2Proof/Machine/Ops.lean ====
section
/-! DEFINITION. The named operations over memory, registers, stack and inputs, and the entry of an execution fault. -/

namespace Sys2Proof.Machine

/-! ### Memory -/

/-- Whether `a` lies in the font region `FONT_BASE .. FONT_BASE + 16*GLYPH_BYTES - 1` (R53, R218). -/
def inFont (c : Config) (a : Nat) : Bool :=
  decide (c.fontBase ≤ a) && decide (a < c.fontBase + c.fontBytes)

/-- What an address that memory does not list reads as: its load contents, the font byte in the font region and zero
elsewhere (R55, R233; log entry 12). -/
def Memory.unlisted (c : Config) (a : Nat) : Byte :=
  if inFont c a then c.font.getD (a - c.fontBase) 0#8 else 0#8

/-- The listed byte at an address, if any. -/
def Memory.lookup : Memory → Nat → Option Byte
  | [], _ => none
  | (b, w) :: m, a => if a = b then some w else Memory.lookup m a

/-- The byte at an address (R52). -/
def Memory.get (c : Config) (m : Memory) (a : Nat) : Byte :=
  (Memory.lookup m a).getD (Memory.unlisted c a)

/-- List `v` at `a` in its place in the order, or unlist `a` where `v` is what it then reads as, `u`. -/
def Memory.put (u : Byte) (a : Nat) (v : Byte) : Memory → Memory
  | [] => if v = u then [] else [(a, v)]
  | (b, w) :: m =>
    if a < b then (if v = u then (b, w) :: m else (a, v) :: (b, w) :: m)
    else if a = b then (if v = u then m else (a, v) :: m)
    else (b, w) :: Memory.put u a v m

/-- Store a byte (R53, after its checks); an address outside memory does not exist and holds nothing (R50). -/
def Memory.set (c : Config) (m : Memory) (a : Nat) (v : Byte) : Memory :=
  if a < c.memSize then Memory.put (Memory.unlisted c a) a v m else m

/-- Store bytes at consecutive addresses from `a`. -/
def Memory.setMany (c : Config) (m : Memory) (a : Nat) : List Byte → Memory
  | [] => m
  | v :: vs => Memory.setMany c (Memory.set c m a v) (a + 1) vs

/-- The canonical form: addresses strictly rising, each inside memory, and no entry equal to what its address reads as
when unlisted. -/
abbrev Memory.wf (c : Config) (m : Memory) : Prop :=
  m.Pairwise (fun p q => p.1 < q.1) ∧ ∀ p ∈ m, p.1 < c.memSize ∧ p.2 ≠ Memory.unlisted c p.1

/-- The byte of the state's memory at an address. -/
def State.readByte (s : State) (a : Nat) : Byte := Memory.get s.cfg s.mem a

/-- The `m` bytes from address `a`, in address order. -/
def State.readBytes (s : State) (a m : Nat) : List Byte := (List.range m).map (fun k => s.readByte (a + k))

/-- Store bytes from address `a` (R145, R146, after the precheck of R144). -/
def State.storeBytes (s : State) (a : Nat) (bs : List Byte) : State :=
  { s with mem := Memory.setMany s.cfg s.mem a bs }

/-! ### Registers -/

/-- `V[x]` (R14). -/
def State.getV (s : State) (x : Nibble) : Byte := s.v[x.toNat]'x.isLt

/-- `V[x] <- b` (R14). -/
def State.setV (s : State) (x : Nibble) (b : Byte) : State :=
  { s with v := s.v.set x.toNat b x.isLt
           written := { s.written with v := s.written.v.set x.toNat true x.isLt } }

/-- Write consecutive registers from number `k` (R147). -/
def State.setVFrom (s : State) (k : Nat) : List Byte → State
  | [] => s
  | b :: bs => State.setVFrom (s.setV (BitVec.ofNat 4 k) b) (k + 1) bs

/-- `I <- a` (R23). -/
def State.setI (s : State) (a : Addr) : State :=
  { s with i := a, written := { s.written with i := true } }

/-- `DT <- b` (R29). -/
def State.setDT (s : State) (b : Byte) : State :=
  { s with dt := b, written := { s.written with dt := true } }

/-- `ST <- b` (R29). -/
def State.setST (s : State) (b : Byte) : State :=
  { s with st := b, written := { s.written with st := true } }

/-- `PC <- a`. -/
def State.setPC (s : State) (a : Addr) : State := { s with pc := a }

/-- The advance of `PC` by 2 before dispatch, modulo 2^16 (R84, R26). -/
def State.advance (s : State) : State := { s with pc := s.pc + 2#16 }

/-- A skip: 2 more on the advanced `PC` where the condition holds (R110). -/
def State.skipIf (s : State) (p : Bool) : State := if p then { s with pc := s.pc + 2#16 } else s

/-! ### The call stack -/

/-- Push the advanced `PC` (R104). -/
def State.pushPC (s : State) : State := { s with stack := s.stack ++ [s.pc] }

/-- Pop the top entry into `PC`; nothing when the stack is empty (R101, R27). -/
def State.popPC (s : State) : State :=
  match s.stack.getLast? with
  | some a => { s with pc := a, stack := s.stack.dropLast }
  | none => s

/-! ### Display -/

/-- Replace the buffer (R30). -/
def State.setDisp (s : State) (d : Display) : State := { s with disp := d }

/-- Set `DIRTY` where the condition holds; no instruction clears it (R166). -/
def State.markDirty (s : State) (p : Bool) : State := { s with dirty := s.dirty || p }

/-! ### Inputs of the current opcode tick -/

/-- The inputs of the current tick: the sampled ones, or the free values of this draw (R41, R42, R43). -/
def State.inputs (s : State) : Inputs :=
  match s.sample with
  | some inp => inp
  | none => ⟨Config.freeKeys s.draws, Config.freeRand s.draws, Config.freePick s.draws⟩

/-- `KEYS[k]` (R41, R216). -/
def State.keyDown (s : State) (k : Nibble) : Bool := s.inputs.keys[k.toNat]'k.isLt

/-- The keys that are down, in index order. -/
def downKeys (keys : Keys) : List Nibble :=
  ((List.range 16).map (BitVec.ofNat 4)).filter (fun k => keys[k.toNat]'k.isLt)

/-- `choose_pressed()` (R43): nothing when no key is down, else some key that is down. -/
def choosePressed (keys : Keys) (pick : Nat) : Option Nibble :=
  (downKeys keys)[pick % (downKeys keys).length]?

/-- The pressed-key answer of the current tick. -/
def State.pressed (s : State) : Option Nibble := choosePressed s.inputs.keys s.inputs.pick

/-- Sample an event's inputs for an opcode tick (R230). -/
def State.sampled (s : State) (inp : Inputs) : State := { s with sample := some inp }

/-- Start an opcode tick whose inputs no event gives: the next draw of the free values (log entry 5). -/
def State.drawn (s : State) : State := { s with sample := none, draws := s.draws + 1 }

/-! ### Execution faults -/

/-- What a failed check reports: the kind, and the failing byte address where the kind has one. -/
structure Raise where
  kind : FaultKind
  ea : Option Nat
deriving DecidableEq, Repr

/-- The record of a fault raised while `PC` still holds the fetch address (R201). -/
def State.faultRecord (s : State) (w : Option Word) (r : Raise) : FaultRecord := ⟨r.kind, w, s.pc, r.ea⟩

/-- Fault entry (R201): `HALT <- faulted(kind, w, addr, ea)`, every other piece of state as before the step (so `PC` is the
fetch address), and the fault is emitted. `s` is the state before the step. -/
def State.enterFault (s : State) (w : Option Word) (r : Raise) : State :=
  { s with halt := .faulted (s.faultRecord w r), outputs := s.outputs ++ [.fault (s.faultRecord w r)] }

/-- The code of a fault kind (R220). -/
def FaultKind.code : FaultKind → Nat
  | .unknownOpcode => 1
  | .nativeCallUnsupported => 2
  | .stackOverflow => 3
  | .memoryOutOfRange => 4
  | .misalignedFetch => 5
  | .keyIndexOutOfRange => 6
  | .fontRegionWrite => 7
  | .unwrittenRead => 8

/-- End an instruction: take the fault of its first failed check, with its own word (R201, R206; log entry 27), or else
reach the state its effect gives. Every check comes before the first write, since `s` is the state before the step. -/
def attempt (i : Instr) (check : Option Raise) (s done : State) : Host.Outcome State Fault Refusal :=
  .next (match check with
    | some r => s.enterFault (some (encode i)) r
    | none => done)

/-! ### Reads of a register that nothing has written (R207) -/

/-- The registers an instruction can read (R207). -/
inductive Source where
  | v (x : Nibble)
  | i
  | dt
  | st
deriving DecidableEq, Repr

/-- Whether a register has been written since load (R34). -/
def State.isWritten (s : State) (r : Source) : Bool :=
  match r with
  | .v x => s.written.v[x.toNat]'x.isLt
  | .i => s.written.i
  | .dt => s.written.dt
  | .st => s.written.st

/-- Whether the registers may all be read: always under the default policy, and under `unwritten_faults` where each has
been written since load (R34, R207). -/
def State.readable (s : State) (rs : List Source) : Bool :=
  match s.cfg.resetReg with
  | .zero => true
  | .unwrittenFaults => rs.all s.isWritten

/-- The check of R207 on the registers an instruction reads. -/
def State.readCheck (s : State) (rs : List Source) : Option Raise :=
  if s.readable rs then none else some ⟨.unwrittenRead, none⟩

/-! ### Access checks -/

/-- The check of a byte read (R52). -/
def loadFault (c : Config) (a : Nat) : Option Raise :=
  if c.memSize ≤ a then some ⟨.memoryOutOfRange, some a⟩ else none

/-- The checks of a byte store, bounds before font region (R53, R221). -/
def storeFault (c : Config) (a : Nat) : Option Raise :=
  if c.memSize ≤ a then some ⟨.memoryOutOfRange, some a⟩
  else if inFont c a ∧ c.fontWrite = .fault then some ⟨.fontRegionWrite, some a⟩
  else none

/-- The precheck of a transfer of `m` bytes from address `a`: the first failing address in increasing order (R144). -/
def precheck (f : Nat → Option Raise) (a m : Nat) : Option Raise := (List.range m).findSome? (fun k => f (a + k))

/-- The call stack's capacity check (R104, R208). -/
def State.stackCheck (s : State) : Option Raise :=
  if s.stack.length = s.cfg.stackDepth then some ⟨.stackOverflow, none⟩ else none

/-- The key-index check (R187, R209). -/
def keyCheck (c : Config) (b : Byte) : Option Raise :=
  if 16 ≤ b.toNat ∧ c.keyIndex = .fault then some ⟨.keyIndexOutOfRange, none⟩ else none

end Sys2Proof.Machine
end

