-- ==== Sys2Proof/Machine/Flags.lean ====
section
/-! DEFINITION. The arithmetic of the five flag-writing operations, each giving its result and its flag (41_alu.md R121,
R129 to R133), and the order in which they are written (R122). -/

namespace Sys2Proof.Machine

/-- A flag as the byte written to `VF`. -/
def flagByte (p : Bool) : Byte := if p then 1#8 else 0#8

/-- Addition: the exact sum modulo 256, and 1 iff it exceeds 255 (R121, R129). -/
def addFlags (a b : Byte) : Byte × Byte :=
  (BitVec.ofNat 8 (a.toNat + b.toNat), flagByte (decide (255 < a.toNat + b.toNat)))

/-- Subtraction `a - b`: the difference modulo 256, and 1 iff there is no borrow (R121, R130). -/
def subFlags (a b : Byte) : Byte × Byte :=
  (BitVec.ofNat 8 (a.toNat + 256 - b.toNat), flagByte (decide (b.toNat ≤ a.toNat)))

/-- Shift right by one: bit 0 before the shift is the flag (R131). -/
def shrFlags (a : Byte) : Byte × Byte := (a >>> 1, flagByte (a.getLsbD 0))

/-- Shift left by one: bit 7 before the shift is the flag (R133). -/
def shlFlags (a : Byte) : Byte × Byte := (a <<< 1, flagByte (a.getLsbD 7))

/-- Write a result to `V[x]` and a flag to `VF` in the order of `VF_DEST_POLICY` (R122; log entry 16). -/
def State.setFlagged (s : State) (x : Nibble) (rf : Byte × Byte) : State :=
  match s.cfg.vfDest with
  | .flagLast => (s.setV x rf.1).setV VF rf.2
  | .resultLast => (s.setV VF rf.2).setV x rf.1

end Sys2Proof.Machine
end

