-- ==== Sys2Proof/Machine/Operands.lean ====
section
/-! DEFINITION. The operand forms: immediates, effective addresses, register ranges, key indices, the digits of a byte. -/

namespace Sys2Proof.Machine

/-- `zext_16(nnn)`: an absolute address, never scaled or relative (R72). -/
def absolute (nnn : Imm12) : Addr := nnn.setWidth 16

/-- `zext_16(V[x])` (R109, R142). -/
def zextByte (b : Byte) : Addr := b.setWidth 16

/-- The effective address of the first byte of a transfer: `I` as an unbounded natural (R140, R51). -/
def State.base (s : State) : Nat := s.i.toNat

/-- How many registers `0 .. x` are (R146, R147). -/
def regCount (x : Nibble) : Nat := x.toNat + 1

/-- The values of registers `0 .. x`, in order (R146). -/
def State.firstV (s : State) (x : Nibble) : List Byte :=
  (List.range (regCount x)).map (fun k => s.getV (BitVec.ofNat 4 k))

/-- Registers `0 .. x` as sources of an instruction (R22, R207). -/
def firstSources (x : Nibble) : List Source :=
  (List.range (regCount x)).map (fun k => .v (BitVec.ofNat 4 k))

/-- The address of the glyph of a byte: `FONT_BASE + GLYPH_BYTES * V[x]`, the whole byte, no mask (R143, D24; log entry 28
for the 16-bit result). -/
def glyphAddr (c : Config) (b : Byte) : Addr := BitVec.ofNat 16 (c.fontBase + c.glyphBytes * b.toNat)

/-- The decimal digits of a byte: hundreds, tens, ones (R145). -/
def bcdDigits (b : Byte) : List Byte :=
  [BitVec.ofNat 8 (b.toNat / 100), BitVec.ofNat 8 (b.toNat / 10 % 10), BitVec.ofNat 8 (b.toNat % 10)]

/-- The key index of a register value that passed `keyCheck`: the value itself below 16, its low nibble under the `mask`
policy (R187). -/
def keyIndex (b : Byte) : Nibble := b.setWidth 4

end Sys2Proof.Machine
end

