-- ==== Sys2Proof/Machine/Alu.lean ====
section
/-! DEFINITION. Register arithmetic and logic (41_alu.md): immediates, group 8, and the random masked load. -/

namespace Sys2Proof.Machine

/-- LD Vx, nn (R123). -/
def execLdImm (x : Nibble) (nn : Byte) (s : State) : Host.Outcome State Fault Refusal :=
  .next (s.advance.setV x nn)

/-- ADD Vx, nn (R124): modulo 256, no flag. -/
def execAddImm (x : Nibble) (nn : Byte) (s : State) : Host.Outcome State Fault Refusal :=
  attempt (.addImm x nn) (s.readCheck [.v x]) s (s.advance.setV x (s.getV x + nn))

/-- LD Vx, Vy (R125). -/
def execLdReg (x y : Nibble) (s : State) : Host.Outcome State Fault Refusal :=
  attempt (.ldReg x y) (s.readCheck [.v y]) s (s.advance.setV x (s.getV y))

/-- OR Vx, Vy (R126); `VF` is not written (D10). -/
def execOrReg (x y : Nibble) (s : State) : Host.Outcome State Fault Refusal :=
  attempt (.orReg x y) (s.readCheck [.v x, .v y]) s (s.advance.setV x (s.getV x ||| s.getV y))

/-- AND Vx, Vy (R127); `VF` is not written (D10). -/
def execAndReg (x y : Nibble) (s : State) : Host.Outcome State Fault Refusal :=
  attempt (.andReg x y) (s.readCheck [.v x, .v y]) s (s.advance.setV x (s.getV x &&& s.getV y))

/-- XOR Vx, Vy (R128); `VF` is not written (D10). -/
def execXorReg (x y : Nibble) (s : State) : Host.Outcome State Fault Refusal :=
  attempt (.xorReg x y) (s.readCheck [.v x, .v y]) s (s.advance.setV x (s.getV x ^^^ s.getV y))

/-- ADD Vx, Vy with carry (R129). -/
def execAddReg (x y : Nibble) (s : State) : Host.Outcome State Fault Refusal :=
  attempt (.addReg x y) (s.readCheck [.v x, .v y]) s (s.advance.setFlagged x (addFlags (s.getV x) (s.getV y)))

/-- SUB Vx, Vy: x - y with borrow (R130). -/
def execSubReg (x y : Nibble) (s : State) : Host.Outcome State Fault Refusal :=
  attempt (.subReg x y) (s.readCheck [.v x, .v y]) s (s.advance.setFlagged x (subFlags (s.getV x) (s.getV y)))

/-- SHR Vx (R131); `y` is not used (R78). -/
def execShr (x y : Nibble) (s : State) : Host.Outcome State Fault Refusal :=
  attempt (.shr x y) (s.readCheck [.v x]) s (s.advance.setFlagged x (shrFlags (s.getV x)))

/-- SUBN Vx, Vy: y - x with borrow (R132). -/
def execSubnReg (x y : Nibble) (s : State) : Host.Outcome State Fault Refusal :=
  attempt (.subnReg x y) (s.readCheck [.v x, .v y]) s (s.advance.setFlagged x (subFlags (s.getV y) (s.getV x)))

/-- SHL Vx (R133); `y` is not used (R78). -/
def execShl (x y : Nibble) (s : State) : Host.Outcome State Fault Refusal :=
  attempt (.shl x y) (s.readCheck [.v x]) s (s.advance.setFlagged x (shlFlags (s.getV x)))

/-- RND Vx, nn (R134): the step's random byte (R42), masked. -/
def execRnd (x : Nibble) (nn : Byte) (s : State) : Host.Outcome State Fault Refusal :=
  .next (s.advance.setV x (s.inputs.rand &&& nn))

end Sys2Proof.Machine
end

