-- ==== Sys2Proof/Machine/Control.lean ====
section
/-! DEFINITION. Control transfer (40_control_flow.md): return, native call, jump, call, the four value skips, indexed jump.
Each meaning takes the state before the step, `PC` at the instruction, and advances `PC` first (R84, R100). -/

namespace Sys2Proof.Machine

/-- RET (R101): pop the return address; a silent no-op on an empty stack. -/
def execRet (s : State) : Host.Outcome State Fault Refusal :=
  .next s.advance.popPC

/-- SYS nnn (R102, R205): always takes the fault `NativeCallUnsupported`. -/
def execSys (nnn : Imm12) (s : State) : Host.Outcome State Fault Refusal :=
  attempt (.sys nnn) (some ⟨.nativeCallUnsupported, none⟩) s s

/-- JP nnn (R103). -/
def execJp (nnn : Imm12) (s : State) : Host.Outcome State Fault Refusal :=
  .next (s.advance.setPC (absolute nnn))

/-- CALL nnn (R104, R208): push the address after the call; a full stack takes the fault `StackOverflow`. -/
def execCall (nnn : Imm12) (s : State) : Host.Outcome State Fault Refusal :=
  attempt (.call nnn) s.stackCheck s (s.advance.pushPC.setPC (absolute nnn))

/-- SE Vx, nn (R105). -/
def execSeImm (x : Nibble) (nn : Byte) (s : State) : Host.Outcome State Fault Refusal :=
  attempt (.seImm x nn) (s.readCheck [.v x]) s (s.advance.skipIf (s.getV x == nn))

/-- SNE Vx, nn (R106). -/
def execSneImm (x : Nibble) (nn : Byte) (s : State) : Host.Outcome State Fault Refusal :=
  attempt (.sneImm x nn) (s.readCheck [.v x]) s (s.advance.skipIf (s.getV x != nn))

/-- SE Vx, Vy (R107). -/
def execSeReg (x y : Nibble) (s : State) : Host.Outcome State Fault Refusal :=
  attempt (.seReg x y) (s.readCheck [.v x, .v y]) s (s.advance.skipIf (s.getV x == s.getV y))

/-- SNE Vx, Vy (R108). -/
def execSneReg (x y : Nibble) (s : State) : Host.Outcome State Fault Refusal :=
  attempt (.sneReg x y) (s.readCheck [.v x, .v y]) s (s.advance.skipIf (s.getV x != s.getV y))

/-- JP V0, nnn (R109): the 16-bit sum with `V[0]`, not masked (D25). -/
def execJpV0 (nnn : Imm12) (s : State) : Host.Outcome State Fault Refusal :=
  attempt (.jpV0 nnn) (s.readCheck [.v 0#4]) s (s.advance.setPC (zextByte (s.getV 0#4) + absolute nnn))

end Sys2Proof.Machine
end

