-- ==== Sys2Proof/Machine/Display.lean ====
section
/-! DEFINITION. The display buffer, clear screen and the sprite blit (43_display.md). -/

namespace Sys2Proof.Machine

/-- `DISP[c][r]`: the pixel at column `c` from the left, row `r` from the top (R14, R30). -/
def pixel (d : Display) (c r : Nat) : Bool := ((d[r]?).bind (fun row => row[c]?)).getD false

/-- Invert one pixel (R163: `DISP[c][r] ^ 1`). -/
def flipPixel (d : Display) (c r : Nat) : Display := d.modify r (fun row => row.modify c not)

/-- The buffer with every pixel 0 (R162). -/
def blank (c : Config) : Display := List.replicate c.dispH (List.replicate c.dispW false)

/-- The buffer has `DISP_H` rows of `DISP_W` pixels (R30). -/
abbrev dispWf (c : Config) (d : Display) : Prop := d.length = c.dispH ∧ ∀ row ∈ d, row.length = c.dispW

/-- What a blit carries along (R163): the buffer, `collide` and `changed`. -/
structure Blit where
  disp : Display
  collide : Bool
  changed : Bool
deriving DecidableEq, Repr

/-- XOR one set sprite bit into the pixel: a pixel that was 1 is a collision (R163, R165). -/
def blitPixel (b : Blit) (c r : Nat) : Blit :=
  ⟨flipPixel b.disp c r, b.collide || pixel b.disp c r, true⟩

/-- Bit offset `k` of a sprite row: offset 0 is bit 7, the leftmost pixel (R161; log entry 21). -/
def spriteBit (row : Byte) (k : Nat) : Bool := row.getLsbD (7 - k)

/-- One sprite row from bit offset `k` on: the row stops at the right edge (R163, R164). `left` counts the offsets to go. -/
def blitRow (w : Nat) (row : Byte) (cx r : Nat) : Nat → Nat → Blit → Blit
  | 0, _, b => b
  | left + 1, k, b =>
    if w ≤ cx + k then b
    else blitRow w row cx r left (k + 1) (if spriteBit row k then blitPixel b (cx + k) r else b)

/-- The sprite rows from display row `r` on: at the bottom edge this and the later rows are dropped (R163, R164). -/
def blitRows (c : Config) (cx : Nat) : Nat → List Byte → Blit → Blit
  | _, [], b => b
  | r, row :: rows, b =>
    if c.dispH ≤ r then b else blitRows c cx (r + 1) rows (blitRow c.dispW row cx r 8 0 b)

/-- The blit of a whole sprite at column `cx`, row `cy`; the start is not reduced modulo the display (R164). -/
def blitSprite (c : Config) (cx cy : Nat) (sprite : List Byte) (d : Display) : Blit :=
  blitRows c cx cy sprite ⟨d, false, false⟩

/-- The sprite of `DRW Vx, Vy, n`: `n` bytes from `I` (R161). -/
def State.sprite (s : State) (n : Nibble) : List Byte := s.readBytes s.base n.toNat

/-- The blit of `DRW Vx, Vy, n`, its coordinates read before `VF` is written (R163). -/
def State.blit (s : State) (x y n : Nibble) : Blit :=
  blitSprite s.cfg (s.getV x).toNat (s.getV y).toNat (s.sprite n) s.disp

/-- CLS (R162): every pixel 0, `DIRTY` set also when the buffer was clear (R166). -/
def execCls (s : State) : Host.Outcome State Fault Refusal :=
  .next ((s.advance.setDisp (blank s.cfg)).markDirty true)

/-- DRW Vx, Vy, n (R163): all `n` bytes are bounds-checked first (D28), then the blit, `DIRTY` and `VF`. -/
def execDrw (x y n : Nibble) (s : State) : Host.Outcome State Fault Refusal :=
  attempt (.drw x y n) ((s.readCheck [.v x, .v y, .i]).or (precheck (loadFault s.cfg) s.base n.toNat)) s
    (((s.advance.setDisp (s.blit x y n).disp).markDirty (s.blit x y n).changed).setV VF
      (flagByte (s.blit x y n).collide))

end Sys2Proof.Machine
end

