-- ==== Sys2Proof/Machine/Index.lean ====
section
/-! DEFINITION. The address register and the memory transfers (42_index_memory.md). No transfer changes `I` (R140). -/

namespace Sys2Proof.Machine

/-- LD I, nnn (R141). -/
def execLdI (nnn : Imm12) (s : State) : Host.Outcome State Fault Refusal :=
  .next (s.advance.setI (absolute nnn))

/-- ADD I, Vx (R142): modulo 2^16, no flag. -/
def execAddI (x : Nibble) (s : State) : Host.Outcome State Fault Refusal :=
  attempt (.addI x) (s.readCheck [.v x, .i]) s (s.advance.setI (s.i + zextByte (s.getV x)))

/-- LD F, Vx (R143). -/
def execLdF (x : Nibble) (s : State) : Host.Outcome State Fault Refusal :=
  attempt (.ldF x) (s.readCheck [.v x]) s (s.advance.setI (glyphAddr s.cfg (s.getV x)))

/-- LD B, Vx (R145): the three decimal digits at `I`, `I+1`, `I+2`. -/
def execLdB (x : Nibble) (s : State) : Host.Outcome State Fault Refusal :=
  attempt (.ldB x) ((s.readCheck [.v x, .i]).or (precheck (storeFault s.cfg) s.base 3)) s
    (s.advance.storeBytes s.base (bcdDigits (s.getV x)))

/-- LD [I], Vx (R146): registers `0 .. x` at `I .. I+x`. -/
def execLdMemVx (x : Nibble) (s : State) : Host.Outcome State Fault Refusal :=
  attempt (.ldMemVx x) ((s.readCheck (firstSources x ++ [.i])).or (precheck (storeFault s.cfg) s.base (regCount x))) s
    (s.advance.storeBytes s.base (s.firstV x))

/-- LD Vx, [I] (R147): registers `0 .. x` from `I .. I+x`; bounds only. -/
def execLdVxMem (x : Nibble) (s : State) : Host.Outcome State Fault Refusal :=
  attempt (.ldVxMem x) ((s.readCheck [.i]).or (precheck (loadFault s.cfg) s.base (regCount x))) s
    (s.advance.setVFrom 0 (s.readBytes s.base (regCount x)))

end Sys2Proof.Machine
end

