-- ==== Sys2Proof/Machine/Input.lean ====
section
/-! DEFINITION. The key skips, the key wait and the timer instructions (44_timers_input.md). -/

namespace Sys2Proof.Machine

/-- SKP Vx (R181, R187). -/
def execSkp (x : Nibble) (s : State) : Host.Outcome State Fault Refusal :=
  attempt (.skp x) ((s.readCheck [.v x]).or (keyCheck s.cfg (s.getV x))) s
    (s.advance.skipIf (s.keyDown (keyIndex (s.getV x))))

/-- SKNP Vx (R182, R187). -/
def execSknp (x : Nibble) (s : State) : Host.Outcome State Fault Refusal :=
  attempt (.sknp x) ((s.readCheck [.v x]).or (keyCheck s.cfg (s.getV x))) s
    (s.advance.skipIf (!s.keyDown (keyIndex (s.getV x))))

/-- LD Vx, DT (R183). -/
def execLdVxDt (x : Nibble) (s : State) : Host.Outcome State Fault Refusal :=
  attempt (.ldVxDt x) (s.readCheck [.dt]) s (s.advance.setV x s.dt)

/-- `PC <- PC - 2` modulo 2^16: back to the instruction itself (R184). -/
def State.rewind (s : State) : State := s.setPC (s.pc - 2#16)

/-- The end of a key wait: the key's index in `V[x]`, or the instruction again (R184, R35). -/
def State.takeKey (s : State) (x : Nibble) (k : Option Nibble) : State :=
  match k with
  | none => s.rewind
  | some k => s.setV x (k.setWidth 8)

/-- LD Vx, K (R184). -/
def execLdVxK (x : Nibble) (s : State) : Host.Outcome State Fault Refusal :=
  .next (s.advance.takeKey x s.pressed)

/-- LD DT, Vx (R185). -/
def execLdDtVx (x : Nibble) (s : State) : Host.Outcome State Fault Refusal :=
  attempt (.ldDtVx x) (s.readCheck [.v x]) s (s.advance.setDT (s.getV x))

/-- LD ST, Vx (R186): the tone output follows at the next frame tick. -/
def execLdStVx (x : Nibble) (s : State) : Host.Outcome State Fault Refusal :=
  attempt (.ldStVx x) (s.readCheck [.v x]) s (s.advance.setST (s.getV x))

end Sys2Proof.Machine
end

