-- ==== Sys2Proof/Machine/Frame.lean ====
section
/-! DEFINITION. The frame tick with the timer unit, and the host's quit (60_exceptions.md R210 to R217). -/

namespace Sys2Proof.Machine

/-- One count of a timer, saturating at 0 (R211). -/
def countDown (t : Byte) : Byte := if 0 < t.toNat then t - 1#8 else t

/-- `Tick()` (R211): both timers, independently. -/
def State.tickTimers (s : State) : State := { s with dt := countDown s.dt, st := countDown s.st }

/-- `Present()` (R214): emit the buffer and clear `DIRTY`, only where it is dirty. -/
def State.presentIfDirty (s : State) : State :=
  if s.dirty then { s with dirty := false, outputs := s.outputs ++ [.present s.disp] } else s

/-- `SetTone()` (R215): the tone is on where `ST` is not 0, and is emitted. -/
def State.pushTone (s : State) : State :=
  { s with tone := s.st != 0#8, outputs := s.outputs ++ [.setTone (s.st != 0#8)] }

/-- `FrameTick` (R210): timers, present, tone, in that order. -/
def State.frameTick (s : State) : State := s.tickTimers.presentIfDirty.pushTone

/-- The host's quit (R217): `HALT <- quit` and nothing else. -/
def State.quitNow (s : State) : State := { s with halt := .quit }

end Sys2Proof.Machine
end

