-- ==== Sys2Proof/Machine/Cycle.lean ====
section
/-! DEFINITION. Fetch, decode and execute of one opcode tick (20_memory.md R54, 30_encoding.md R84, 70_reset_and_hazards.md
R230), and the delivery of one event (10_state.md R40, R38). -/

namespace Sys2Proof.Machine

/-- The checks of a fetch, in order: alignment, then the byte at `PC`, then the byte at `PC + 1` (R54, R221). -/
def State.fetchCheck (s : State) : Option Raise :=
  if s.pc.toNat % 2 = 1 ∧ s.cfg.oddPc = .fault then some ⟨.misalignedFetch, some s.pc.toNat⟩
  else (loadFault s.cfg s.pc.toNat).or (loadFault s.cfg (s.pc.toNat + 1))

/-- The word at `PC`, big-endian (R54, R57). -/
def State.fetchWord (s : State) : Word := wordOfBytes (s.readByte s.pc.toNat) (s.readByte (s.pc.toNat + 1))

/-- Decode the fetched word and execute it; an illegal word takes the fault `UnknownOpcode` (R75, R204). -/
def runWord (w : Word) (s : State) : Host.Outcome State Fault Refusal :=
  match decodeWord w with
  | .ok i => exec i s
  | .error _ => .next (s.enterFault (some w) ⟨.unknownOpcode, none⟩)

/-- One opcode tick after its inputs are sampled (R230): fetch, advance, decode, execute. The advance is part of each
meaning, so that a fault finds the state before the step (R201). -/
def runOpcode (s : State) : Host.Outcome State Fault Refusal :=
  match s.fetchCheck with
  | some r => .next (s.enterFault none r)
  | none => runWord s.fetchWord s

/-- Apply one event to a running block (R40, R241): each is atomic (R60). -/
def applyEvent (e : Event) (s : State) : Host.Outcome State Fault Refusal :=
  match e with
  | .opcodeTick inp => runOpcode (s.sampled inp)
  | .frameTick => .next s.frameTick
  | .quit => .next s.quitNow

/-- The next event of a running block: the oldest pending one, or an opcode tick with free inputs when none is pending
(R241; log entry 4). -/
def runNext (s : State) : Host.Outcome State Fault Refusal :=
  match s.pending with
  | [] => runOpcode s.drawn
  | e :: rest => applyEvent e { s with pending := rest }

/-- Deliver an event to a block in any status: once it is not running, nothing happens (R38, R241). -/
def deliver (e : Event) (s : State) : Host.Outcome State Fault Refusal :=
  match s.halt with
  | .running => applyEvent e s
  | .faulted _ => .next s
  | .quit => .next s

/-- A run of the interleaving model: any sequence of events, each applied atomically (R241). -/
def deliverAll : List Event → State → Host.Outcome State Fault Refusal
  | [], s => .next s
  | e :: es, s =>
    match deliver e s with
    | .next t => deliverAll es t
    | .fault r => .fault r
    | .refused r => .refused r

/-- Whether an event is an opcode tick. -/
def Event.isOpcodeTick (e : Event) : Bool :=
  match e with
  | .opcodeTick _ => true
  | .frameTick => false
  | .quit => false

/-- The pending events from the first opcode tick on: with these, the next event is an opcode tick. -/
def fromOpcodeTick (es : List Event) : List Event := es.dropWhile (fun e => !e.isOpcodeTick)

/-- Store a word at `PC` without a store's checks, as a load does (R233, R57). -/
def State.placeWord (s : State) (w : Word) : State := s.storeBytes s.pc.toNat (bytesOfWord w)

end Sys2Proof.Machine
end

