-- ==== Sys2Proof/Machine/Step.lean ====
section
/-! DEFINITION. The step of the block, and the placing of a word where the next step fetches it. -/

namespace Sys2Proof.Machine

/-- One step: the next event of a running block; a block that is not running takes no step (R38, R230, R241). -/
def step (s : State) : Host.Outcome State Fault Refusal :=
  match s.halt with
  | .running => runNext s
  | .faulted r => .fault (.faulted r)
  | .quit => .fault .quit

/-- The state with an instruction stored where `step` fetches: its word at `PC`, `PC + 1` (R54), the block running, and
the next event an opcode tick (log entry 3). -/
def State.withFetchWord (s : State) (nbits w : Nat) : State :=
  { s.placeWord (tableWord nbits w) with halt := .running, pending := fromOpcodeTick s.pending }

end Sys2Proof.Machine
end

