-- ==== Sys2Proof/Machine/Load.lean ====
section
/-! DEFINITION. The load contract, the only way the block comes into being (70_reset_and_hazards.md R233 to R235). -/

namespace Sys2Proof.Machine

/-- Why a load fails (R234). -/
inductive LoadError where
  | romTooLarge
deriving DecidableEq, Repr

/-- Bytes of the program region (R233). -/
def romSpace (c : Config) : Nat := c.programEnd - c.progOrigin

/-- `Load(rom)` (R233): memory zero, the font at `FONT_BASE`, the ROM verbatim from `PROG_ORIGIN`, `PC` at `PROG_ORIGIN`, and
every other piece of state at its value of R34; a ROM larger than the program region fails and creates no state (R234). -/
def load (c : Config) (rom : List Byte) : Except LoadError State :=
  if romSpace c < rom.length then .error .romTooLarge
  else .ok ((State.initial c).storeBytes c.progOrigin rom)

end Sys2Proof.Machine
end

