-- ==== Sys2Proof/Machine/Schedule.lean ====
section
/-! DEFINITION. The ideal-clock schedule (70_reset_and_hazards.md R240), one member of the set of runs of R241, with
`CLOCK_HZ` as its argument (decision D17). Time is counted in units of 1/(FRAME_HZ*CLOCK_HZ) second, in which both periods are
whole numbers (log entry 25). The run loop's sleep is timing only and is left out (U7). -/

namespace Sys2Proof.Machine

/-- The opcode period, 1/CLOCK_HZ second (R240, R251). -/
def opcodePeriod (c : Config) : Nat := c.frameHz

/-- The frame period, 1/FRAME_HZ second (R240, R251). -/
def framePeriod (clockHz : Nat) : Nat := clockHz

/-- Time passes: the elapsed reference of R36 is monotonic, since it changes only by adding the time passed (log entry 25). -/
def Clock.pass (k : Clock) (passed : Nat) : Clock := { k with elapsed := k.elapsed + passed }

/-- Whether the opcode tick is due at the elapsed time. -/
def Clock.opcodeIsDue (k : Clock) : Bool := decide (k.opcodeDue ≤ k.elapsed)

/-- Whether the frame tick is due at the elapsed time. -/
def Clock.frameIsDue (k : Clock) : Bool := decide (k.frameDue ≤ k.elapsed)

/-- The events of one iteration of the run loop at the elapsed time: at most one of each tick, the opcode tick first
(R240, D30). -/
def dueEvents (k : Clock) (inp : Inputs) : List Event :=
  (if k.opcodeIsDue then [.opcodeTick inp] else []) ++ (if k.frameIsDue then [.frameTick] else [])

/-- The clock state after that iteration: each due time that fired advances by its own period (R240, R36). `clockHz` is the
same at every iteration of a run, since the stored due times are in units that depend on it (the model's choice, log
entry 32). -/
def Clock.advance (c : Config) (clockHz : Nat) (k : Clock) : Clock :=
  { k with
    opcodeDue := if k.opcodeIsDue then k.opcodeDue + opcodePeriod c else k.opcodeDue
    frameDue := if k.frameIsDue then k.frameDue + framePeriod clockHz else k.frameDue }

/-- One iteration of the run loop, `passed` after the one before it (R240); a block that is not running has no iteration
(R38). The clock is advanced for every tick due before the ticks are delivered, so that it is advanced also where the opcode
step faults and the frame tick due never occurs (the model's choice, log entry 31). -/
def iteration (clockHz passed : Nat) (inp : Inputs) (s : State) : Host.Outcome State Fault Refusal :=
  match s.halt with
  | .running =>
    deliverAll (dueEvents (s.clock.pass passed) inp) { s with clock := (s.clock.pass passed).advance s.cfg clockHz }
  | .faulted _ => .next s
  | .quit => .next s

end Sys2Proof.Machine
end

