-- ==== Sys2Proof/Safety.lean ====
section
/-! DEFINITION. What counts as a safe run of the block, and the terms in which claims speak: the parts of the state one by
one, what keeps them, how a register is written, how a fault is taken, the invariant, and rest. -/

namespace Sys2Proof.Machine

/-! ### Frames -/

/-- The parts of the state, down to single registers and single bytes. -/
inductive Part where
  | v (x : Nibble)
  | i
  | pc
  | stack
  | dt
  | st
  | disp
  | dirty
  | tone
  | byte (a : Nat)
  | halt
  | clock
  | written (r : Source)
  | cfg
  | sample
  | pending
  | draws
  | outputs
deriving DecidableEq, Repr

/-- A part has the same value in two states. -/
def Part.same (p : Part) (s t : State) : Prop :=
  match p with
  | .v x => t.getV x = s.getV x
  | .i => t.i = s.i
  | .pc => t.pc = s.pc
  | .stack => t.stack = s.stack
  | .dt => t.dt = s.dt
  | .st => t.st = s.st
  | .disp => t.disp = s.disp
  | .dirty => t.dirty = s.dirty
  | .tone => t.tone = s.tone
  | .byte a => t.readByte a = s.readByte a
  | .halt => t.halt = s.halt
  | .clock => t.clock = s.clock
  | .written r => t.isWritten r = s.isWritten r
  | .cfg => t.cfg = s.cfg
  | .sample => t.sample = s.sample
  | .pending => t.pending = s.pending
  | .draws => t.draws = s.draws
  | .outputs => t.outputs = s.outputs

/-- Every part outside the list has the same value in `t` as in `s`: every other register, every other byte of memory, and
every other piece of state. -/
def Keeps (changed : List Part) (s t : State) : Prop := ∀ p, p ∉ changed → p.same s t

/-- The parts a write of `V[x]` changes: the register, and its mark of R34. -/
def vParts (x : Nibble) : List Part := [.v x, .written (.v x)]

/-- The parts a load of registers `0 .. x` changes. -/
def vPartsUpTo (x : Nibble) : List Part := (List.range (x.toNat + 1)).flatMap (fun k => vParts (BitVec.ofNat 4 k))

/-- The parts a store of `m` bytes at address `a` changes. -/
def byteParts (a m : Nat) : List Part := (List.range m).map (fun k => .byte (a + k))

/-- The whole effect of an instruction that writes `b` to `V[x]` and goes on to the next word. -/
def WroteV (x : Nibble) (b : Byte) (s t : State) : Prop :=
  t.getV x = b ∧ t.isWritten (.v x) = true ∧ t.pc = s.pc + 2#16 ∧ Keeps (.pc :: vParts x) s t

/-- The whole effect of a flag-writing instruction (R122): result `r` in `V[x]` and flag `f` in `VF`; where both are `VF`
the flag under `flag_last`, the result under `result_last`. -/
def WroteFlagged (x : Nibble) (r f : Byte) (s t : State) : Prop :=
  (x ≠ VF → t.getV x = r ∧ t.getV VF = f) ∧
    (x = VF → s.cfg.vfDest = .flagLast → t.getV VF = f) ∧
    (x = VF → s.cfg.vfDest = .resultLast → t.getV VF = r) ∧
    t.isWritten (.v x) = true ∧ t.isWritten (.v VF) = true ∧ t.pc = s.pc + 2#16 ∧
    Keeps (.pc :: (vParts x ++ vParts VF)) s t

/-- The whole effect of a skip: past one more word where the condition holds (R110). -/
def Skipped (p : Prop) (s t : State) : Prop :=
  (p → t.pc = s.pc + 4#16) ∧ (¬p → t.pc = s.pc + 2#16) ∧ Keeps [.pc] s t

/-- The whole effect of taking a fault (R201): the record in `HALT`, the fault emitted, everything else as before. -/
def TookFault (r : FaultRecord) (s t : State) : Prop :=
  t.halt = .faulted r ∧ t.outputs = s.outputs ++ [.fault r] ∧ Keeps [.halt, .outputs] s t

/-! ### Opcode ticks -/

/-- The next event of the running block `s` is an opcode tick, and `s'` is the state with its inputs sampled (R230): the
inputs of a pending tick, or the next free draw when nothing is pending. -/
def StartsOpcode (s s' : State) : Prop :=
  s.halt = .running ∧
    ((s.pending = [] ∧ s' = { s with sample := none, draws := s.draws + 1 }) ∨
      ∃ inp rest, s.pending = .opcodeTick inp :: rest ∧ s' = { s with pending := rest, sample := some inp })

/-- The fetch passes its checks (R54): an even `PC` unless the policy fetches odd ones, both bytes inside memory. -/
def Fetchable (s : State) : Prop :=
  (s.pc.toNat % 2 = 0 ∨ s.cfg.oddPc = .fetch) ∧ s.pc.toNat + 1 < s.cfg.memSize

/-- The registers each instruction reads (10_state.md R22, R23, R29). -/
def reads (i : Instr) : List Source :=
  match i with
  | .cls | .ret | .sys _ | .jp _ | .call _ | .ldImm _ _ | .ldI _ | .rnd _ _ | .ldVxK _ => []
  | .seImm x _ | .sneImm x _ | .addImm x _ | .shr x _ | .shl x _ => [.v x]
  | .skp x | .sknp x | .ldDtVx x | .ldStVx x | .ldF x => [.v x]
  | .ldReg _ y => [.v y]
  | .seReg x y | .sneReg x y | .orReg x y | .andReg x y | .xorReg x y => [.v x, .v y]
  | .addReg x y | .subReg x y | .subnReg x y => [.v x, .v y]
  | .jpV0 _ => [.v 0#4]
  | .drw x y _ => [.v x, .v y, .i]
  | .ldVxDt _ => [.dt]
  | .addI x | .ldB x => [.v x, .i]
  | .ldMemVx x => (List.range (x.toNat + 1)).map (fun k => .v (BitVec.ofNat 4 k)) ++ [.i]
  | .ldVxMem _ => [.i]

/-- The registers each instruction may write, `VF` as a flag among them (10_state.md R21, R22). -/
def writes (i : Instr) : List Nibble :=
  match i with
  | .cls | .ret | .sys _ | .jp _ | .call _ | .ldI _ | .jpV0 _ => []
  | .seImm _ _ | .sneImm _ _ | .seReg _ _ | .sneReg _ _ | .skp _ | .sknp _ => []
  | .ldDtVx _ | .ldStVx _ | .addI _ | .ldF _ | .ldB _ | .ldMemVx _ => []
  | .ldImm x _ | .addImm x _ | .ldReg x _ | .orReg x _ | .andReg x _ | .xorReg x _ => [x]
  | .rnd x _ | .ldVxDt x | .ldVxK x => [x]
  | .addReg x _ | .subReg x _ | .shr x _ | .subnReg x _ | .shl x _ => [x, VF]
  | .drw _ _ _ => [VF]
  | .ldVxMem x => (List.range (x.toNat + 1)).map (BitVec.ofNat 4)

/-- The illegal words, exactly (30_encoding.md R76), by the numbers of their fields. -/
def Illegal (w : Word) : Prop :=
  (w.toNat / 4096 = 0x5 ∧ w.toNat % 16 ≠ 0) ∨
    (w.toNat / 4096 = 0x8 ∧ w.toNat % 16 ∈ [0x8, 0x9, 0xA, 0xB, 0xC, 0xD, 0xF]) ∨
    (w.toNat / 4096 = 0x9 ∧ w.toNat % 16 ≠ 0) ∨
    (w.toNat / 4096 = 0xE ∧ w.toNat % 256 ∉ [0x9E, 0xA1]) ∨
    (w.toNat / 4096 = 0xF ∧ w.toNat % 256 ∉ [0x07, 0x0A, 0x15, 0x18, 0x1E, 0x29, 0x33, 0x55, 0x65])

/-- Whether a store of one byte may land (R53): inside memory, and not in the font region unless the policy writes it. -/
def Storable (c : Config) (a : Nat) : Prop :=
  a < c.memSize ∧ (c.fontWrite = .write ∨ ¬(c.fontBase ≤ a ∧ a < c.fontBase + 16 * c.glyphBytes))

/-! ### Safe states and runs -/

/-- A run is safe while the block runs: no execution fault has been taken and the host has not quit (R38, R201). -/
def Safe (s : State) : Prop := s.halt = .running

/-- The invariant of the block: its parameters fit together, memory is in its canonical form, the stack is within its
capacity (R27), and the buffer has its size (R30). -/
abbrev BlockInv (s : State) : Prop :=
  s.cfg.Wf ∧ Memory.wf s.cfg s.mem ∧ s.stack.length ≤ s.cfg.stackDepth ∧ dispWf s.cfg s.disp

/-- At rest (R244): running, and the word at `PC` is a jump to itself that can be fetched. -/
def AtRest (s : State) : Prop :=
  s.halt = .running ∧ Fetchable s ∧ decodeWord s.fetchWord = .ok (.jp (s.pc.setWidth 12)) ∧
    (s.pc.setWidth 12).setWidth 16 = s.pc

/-- Fairness of an infinite sequence of events (R242): both ticks occur infinitely often. -/
def Fair (events : Nat → Event) : Prop :=
  (∀ n, ∃ m, n ≤ m ∧ (events m).isOpcodeTick = true) ∧ ∀ n, ∃ m, n ≤ m ∧ events m = .frameTick

/-- Along the run of the events `es` from `s`, no opcode tick meets an instruction that is `bad` (R212, R241). -/
def RunAvoids (bad : Instr → Prop) : List Event → State → Prop
  | [], _ => True
  | e :: es, s =>
    (e.isOpcodeTick = true → ∀ i, decodeWord s.fetchWord = .ok i → ¬bad i) ∧
      ∀ t, deliver e s = .next t → RunAvoids bad es t

/-- How many frame ticks a sequence of events holds. -/
def frameTicks (es : List Event) : Nat := es.countP (fun e => e == .frameTick)

/-- The sprite bit that a draw of `n` bytes from `I` at column `cx`, row `cy` lays on the pixel at column `c`, row `r` of
the display (R161, R163, R164): none outside the sprite or the display. -/
def SpriteSets (s : State) (cx cy n c r : Nat) : Prop :=
  c < s.cfg.dispW ∧ r < s.cfg.dispH ∧ cx ≤ c ∧ c < cx + 8 ∧ cy ≤ r ∧ r < cy + n ∧
    (s.readByte (s.i.toNat + (r - cy))).getLsbD (7 - (c - cx)) = true

end Sys2Proof.Machine
end

