-- ==== Sys2Proof/Certificates/Slice0/Obligations.lean ====
section
/-! DEFINITION. The statements about the block. Each docstring names the rule of spec/ it comes from; where a clause rests on
one of the spec's own decisions (D<n> of 92_eei_decisions.md) it says so and names the log entry. -/

open Sys2Proof Sys2Proof.Machine

/-! ### Encoding -/

/-- 30_encoding.md R73 to R75, R80: every operation, with every value its fields admit, decodes from its word, and from the
bytes of its word followed by anything. -/
def Obligations.DecodeOfEncodeIsInstruction : Prop :=
  ∀ i : Instr, i.wellFormed = true →
    decodeWord (encode i) = .ok i ∧ ∀ rest, decode (bytesOfWord (encode i) ++ rest) = .ok (i, rest)

/-- R70, R78: each word has one meaning; the word an operation was decoded from is the word of that operation, which is
well formed. -/
def Obligations.EncodeOfDecodeIsWord : Prop :=
  ∀ (w : Word) (i : Instr), decodeWord w = .ok i → i.wellFormed = true ∧ encode i = w

/-- R76 (strict decoding is the spec's decision D8, log entry 15): the decoder refuses exactly the illegal words, each by
name. -/
def Obligations.DecoderRefusesExactlyIllegalWords : Prop :=
  ∀ (w : Word) (e : DecodeError), decodeWord w = .error e ↔ Illegal w ∧ e = .unknownOpcode w

/-- Words of the spec's own examples (95_test_vectors.md), one of each family, decode to their operations. `00EE`, `6005`,
`7003` and `FFFF` are the source's; `8125`, `A300`, `D125`, `E49E` and `F50A` rest on the opcode map of R73 to R75, which is general
knowledge in the spec (G1) and PRESUMED in log entry 20. -/
def Obligations.ExampleWordsDecode : Prop :=
  decodeWord 0x00EE#16 = .ok .ret ∧ decodeWord 0x6005#16 = .ok (.ldImm 0 5) ∧ decodeWord 0x7003#16 = .ok (.addImm 0 3) ∧
    decodeWord 0x8125#16 = .ok (.subReg 1 2) ∧ decodeWord 0xA300#16 = .ok (.ldI 0x300) ∧
    decodeWord 0xD125#16 = .ok (.drw 1 2 5) ∧ decodeWord 0xE49E#16 = .ok (.skp 4) ∧
    decodeWord 0xF50A#16 = .ok (.ldVxK 5) ∧ decodeWord 0xFFFF#16 = .error (.unknownOpcode 0xFFFF)

/-! ### Steps and faults -/

/-- R84, R230, with R54's byte order: where the next event is an opcode tick and the bytes at `PC` can be fetched and decode
to `i`, the step is the meaning of `i` on the state with the tick's inputs sampled. -/
def Obligations.StepRunsDecodedInstruction : Prop :=
  ∀ (s s' : State) (i : Instr), StartsOpcode s s' → Fetchable s' →
    decode [s'.readByte s'.pc.toNat, s'.readByte (s'.pc.toNat + 1)] = .ok (i, []) → step s = exec i s'

/-- R54, R202, R203, R221 (the spec's decisions D5, D6, D29; log entries 11, 13, 24): a fetch that fails its alignment check,
or else the bound of its first byte, or else that of its second, takes that fault, which records the failing address. -/
def Obligations.FailedFetchTakesItsFault : Prop :=
  ∀ s s' : State, StartsOpcode s s' →
    (s'.pc.toNat % 2 = 1 → s'.cfg.oddPc = .fault →
      ∃ t, step s = .next t ∧ TookFault ⟨.misalignedFetch, none, s'.pc, some s'.pc.toNat⟩ s' t) ∧
    (s'.pc.toNat % 2 = 0 ∨ s'.cfg.oddPc = .fetch → s'.cfg.memSize ≤ s'.pc.toNat →
      ∃ t, step s = .next t ∧ TookFault ⟨.memoryOutOfRange, none, s'.pc, some s'.pc.toNat⟩ s' t) ∧
    (s'.pc.toNat % 2 = 0 ∨ s'.cfg.oddPc = .fetch → s'.cfg.memSize = s'.pc.toNat + 1 →
      ∃ t, step s = .next t ∧ TookFault ⟨.memoryOutOfRange, none, s'.pc, some (s'.pc.toNat + 1)⟩ s' t)

/-- R204, R201: a fetched word of the illegal space takes `UnknownOpcode`, which records the word and its address. The illegal
space is the strict decoding of the spec's decision D8 (log entry 15); what else a fault leaves and the address it records are
the spec's decisions D16, D22 (log entries 8, 24). -/
def Obligations.IllegalWordTakesUnknownOpcode : Prop :=
  ∀ (s s' : State) (w : Word), StartsOpcode s s' → Fetchable s' →
    w.toNat = (s'.readByte s'.pc.toNat).toNat * 256 + (s'.readByte (s'.pc.toNat + 1)).toNat → Illegal w →
    ∃ t, step s = .next t ∧ TookFault ⟨.unknownOpcode, some w, s'.pc, none⟩ s' t

/-- R201, R206 (the spec's decisions D16, D22, D27; log entry 24): an instruction that leaves a running block not running has
taken a fault that records its word and its address, and has done nothing else; one that leaves it running has emitted
nothing. -/
def Obligations.FaultsArePrecise : Prop :=
  ∀ (i : Instr) (s t : State), s.halt = .running → exec i s = .next t →
    (t.halt ≠ .running → ∃ r, r.word = some (encode i) ∧ r.addr = s.pc ∧ TookFault r s t) ∧
    (t.halt = .running → t.outputs = s.outputs)

/-- R38, R200 (the spec's decision D16; log entry 8): a running block always goes on to a next state, whatever its memory
holds; one that is not running takes no step, and no event changes it. -/
def Obligations.BlockStepsExactlyWhileRunning : Prop :=
  ∀ s : State,
    (s.halt = .running → ∃ t, step s = .next t) ∧
    (s.halt ≠ .running →
      (∃ r, step s = .fault r) ∧ (∀ e, deliver e s = .next s) ∧ ∀ hz passed inp, iteration hz passed inp s = .next s)

/-- R217 (its arrival between any two events is the spec's decision D20; log entry 4): a quit sets `HALT` and nothing else. -/
def Obligations.QuitOnlyStopsTheBlock : Prop :=
  ∀ (s : State) (rest : List Event), s.halt = .running → s.pending = .quit :: rest →
    ∃ t, step s = .next t ∧ t.halt = .quit ∧ t.pending = rest ∧ Keeps [.halt, .pending] s t

/-- R207 and the priority of R221 (the spec's decisions D14, D29; log entry 10): under `unwritten_faults` an instruction that
reads a register nothing has written takes `UnwrittenRead`; under the default policy no instruction takes it. -/
def Obligations.UnwrittenReadsAreCaught : Prop :=
  ∀ (i : Instr) (s : State),
    (s.cfg.resetReg = .unwrittenFaults → (∃ r ∈ reads i, s.isWritten r = false) →
      ∃ t, exec i s = .next t ∧ TookFault ⟨.unwrittenRead, some (encode i), s.pc, none⟩ s t) ∧
    (s.cfg.resetReg = .zero → s.halt = .running → ∀ t r, exec i s = .next t → t.halt = .faulted r →
      r.kind ≠ .unwrittenRead)

/-! ### Control transfer -/

/-- R101: a return pops the top entry into `PC`; with an empty stack it only goes on. -/
def Obligations.ReturnPopsOrGoesOn : Prop :=
  ∀ s : State, ∃ t, exec .ret s = .next t ∧
    (∀ l a, s.stack = l ++ [a] → t.pc = a ∧ t.stack = l ∧ Keeps [.pc, .stack] s t) ∧
    (s.stack = [] → t.pc = s.pc + 2#16 ∧ Keeps [.pc] s t)

/-- R102, R205, R201: a native call, any `0nnn` word other than clear screen and return, always takes `NativeCallUnsupported`,
which records its word and its address; what else a fault leaves and the address it records are the spec's decisions D16, D22
(log entries 8, 24). -/
def Obligations.NativeCallTakesItsFault : Prop :=
  ∀ (nnn : Imm12) (s : State), (Instr.sys nnn).wellFormed = true → ∃ t, exec (.sys nnn) s = .next t ∧
    TookFault ⟨.nativeCallUnsupported, some (wordNNN 0x0#4 nnn), s.pc, none⟩ s t

/-- R103: an unconditional jump sets `PC` to its immediate address and does nothing else. -/
def Obligations.JumpSetsOnlyPC : Prop :=
  ∀ (nnn : Imm12) (s : State), ∃ t, exec (.jp nnn) s = .next t ∧ t.pc.toNat = nnn.toNat ∧ Keeps [.pc] s t

/-- R104, R208, R201: a call pushes the address after it and jumps; on a full stack it takes `StackOverflow` and pushes nothing.
What else a fault leaves and the address it records are the spec's decisions D16, D22 (log entries 8, 24). -/
def Obligations.CallPushesOrOverflows : Prop :=
  ∀ (nnn : Imm12) (s : State),
    (s.stack.length ≠ s.cfg.stackDepth → ∃ t, exec (.call nnn) s = .next t ∧
      t.stack = s.stack ++ [s.pc + 2#16] ∧ t.pc.toNat = nnn.toNat ∧ Keeps [.pc, .stack] s t) ∧
    (s.stack.length = s.cfg.stackDepth → ∃ t, exec (.call nnn) s = .next t ∧
      TookFault ⟨.stackOverflow, some (wordNNN 0x2#4 nnn), s.pc, none⟩ s t)

/-- 95_test_vectors.md S5: a call followed at once by a return goes on after the call, and changes `PC` only. -/
def Obligations.CallThenReturnGoesOnAfterCall : Prop :=
  ∀ (nnn : Imm12) (s : State), s.stack.length ≠ s.cfg.stackDepth →
    ∃ t u, exec (.call nnn) s = .next t ∧ exec .ret t = .next u ∧ u.pc = s.pc + 2#16 ∧ u.stack = s.stack ∧ Keeps [.pc] s u

/-- R105, R106: the immediate skips pass over one word where the register equals, or does not equal, the byte. -/
def Obligations.ImmediateSkipsCompare : Prop :=
  ∀ (x : Nibble) (nn : Byte) (s : State), s.readable [.v x] = true →
    (∃ t, exec (.seImm x nn) s = .next t ∧ Skipped (s.getV x = nn) s t) ∧
    (∃ t, exec (.sneImm x nn) s = .next t ∧ Skipped (s.getV x ≠ nn) s t)

/-- R107, R108: the register skips pass over one word where the registers are equal, or are not. -/
def Obligations.RegisterSkipsCompare : Prop :=
  ∀ (x y : Nibble) (s : State), s.readable [.v x, .v y] = true →
    (∃ t, exec (.seReg x y) s = .next t ∧ Skipped (s.getV x = s.getV y) s t) ∧
    (∃ t, exec (.sneReg x y) s = .next t ∧ Skipped (s.getV x ≠ s.getV y) s t)

/-- R109 (the unmasked 16-bit sum is the spec's decision D25; log entry 23): the indexed jump adds `V[0]`. -/
def Obligations.IndexedJumpAddsV0 : Prop :=
  ∀ (nnn : Imm12) (s : State), s.readable [.v 0#4] = true → ∃ t, exec (.jpV0 nnn) s = .next t ∧
    t.pc.toNat = (s.getV 0#4).toNat + nnn.toNat ∧ Keeps [.pc] s t

/-! ### Register arithmetic and logic -/

/-- R123, R124, R125: load immediate, add immediate (modulo 256, no flag) and move write their register and nothing else. -/
def Obligations.LoadAddMoveWriteOneRegister : Prop :=
  ∀ (x y : Nibble) (nn : Byte) (s : State),
    (∃ t, exec (.ldImm x nn) s = .next t ∧ WroteV x nn s t) ∧
    (s.readable [.v x] = true → ∃ t b, exec (.addImm x nn) s = .next t ∧
      b.toNat = ((s.getV x).toNat + nn.toNat) % 256 ∧ WroteV x b s t) ∧
    (s.readable [.v y] = true → ∃ t, exec (.ldReg x y) s = .next t ∧ WroteV x (s.getV y) s t)

/-- R126, R127, R128 (that `VF` is not written is the spec's decision D10; log entry 17): the bitwise operations, bit by bit,
write their register and nothing else. -/
def Obligations.LogicWritesOneRegister : Prop :=
  ∀ (x y : Nibble) (s : State), s.readable [.v x, .v y] = true →
    (∃ t b, exec (.orReg x y) s = .next t ∧ WroteV x b s t ∧
      ∀ k, b.getLsbD k = ((s.getV x).getLsbD k || (s.getV y).getLsbD k)) ∧
    (∃ t b, exec (.andReg x y) s = .next t ∧ WroteV x b s t ∧
      ∀ k, b.getLsbD k = ((s.getV x).getLsbD k && (s.getV y).getLsbD k)) ∧
    (∃ t b, exec (.xorReg x y) s = .next t ∧ WroteV x b s t ∧
      ∀ k, b.getLsbD k = ((s.getV x).getLsbD k ^^ (s.getV y).getLsbD k))

/-- R129: add with carry, the sum modulo 256 and 1 in `VF` iff it exceeds 255, for either `VF_DEST_POLICY` (R122). -/
def Obligations.AddGivesSumAndCarry : Prop :=
  ∀ (x y : Nibble) (s : State), s.readable [.v x, .v y] = true → ∃ t r f, exec (.addReg x y) s = .next t ∧
    WroteFlagged x r f s t ∧ r.toNat = ((s.getV x).toNat + (s.getV y).toNat) % 256 ∧
    f.toNat = (if 255 < (s.getV x).toNat + (s.getV y).toNat then 1 else 0)

/-- R130, R132: the two subtractions, the difference modulo 256 and 1 in `VF` iff there is no borrow. -/
def Obligations.SubtractionsGiveDifferenceAndNoBorrow : Prop :=
  ∀ (x y : Nibble) (s : State), s.readable [.v x, .v y] = true →
    (∃ t r f, exec (.subReg x y) s = .next t ∧ WroteFlagged x r f s t ∧ r = s.getV x - s.getV y ∧
      f.toNat = (if (s.getV y).toNat ≤ (s.getV x).toNat then 1 else 0)) ∧
    (∃ t r f, exec (.subnReg x y) s = .next t ∧ WroteFlagged x r f s t ∧ r = s.getV y - s.getV x ∧
      f.toNat = (if (s.getV x).toNat ≤ (s.getV y).toNat then 1 else 0))

/-- R131, R133: the two shifts of `V[x]` by one bit, the bit shifted out in `VF`; `y` plays no part. -/
def Obligations.ShiftsGiveResultAndBitShiftedOut : Prop :=
  ∀ (x y : Nibble) (s : State), s.readable [.v x] = true →
    (∃ t r f, exec (.shr x y) s = .next t ∧ WroteFlagged x r f s t ∧
      r.toNat = (s.getV x).toNat / 2 ∧ f.toNat = (s.getV x).toNat % 2) ∧
    (∃ t r f, exec (.shl x y) s = .next t ∧ WroteFlagged x r f s t ∧
      r.toNat = (s.getV x).toNat * 2 % 256 ∧ f.toNat = (s.getV x).toNat / 128)

/-- R134: the random masked load writes the step's random byte, masked; it holds for every value of that byte. -/
def Obligations.RandomLoadIsMasked : Prop :=
  ∀ (x : Nibble) (nn : Byte) (s : State), ∃ t rand, exec (.rnd x nn) s = .next t ∧
    (∀ inp, s.sample = some inp → rand = inp.rand) ∧ WroteV x (rand &&& nn) s t

/-! ### Address register and memory -/

/-- R141, R142, R143 (the wrap at 16 bits and the unmasked glyph index are the spec's decisions D26, D24; log entries 23, 28):
the three writes of `I`. -/
def Obligations.AddressRegisterWrites : Prop :=
  ∀ (x : Nibble) (nnn : Imm12) (s : State),
    (∃ t, exec (.ldI nnn) s = .next t ∧ t.i.toNat = nnn.toNat ∧ t.isWritten .i = true ∧ t.pc = s.pc + 2#16 ∧
      Keeps [.pc, .i, .written .i] s t) ∧
    (s.readable [.v x, .i] = true → ∃ t, exec (.addI x) s = .next t ∧
      t.i.toNat = (s.i.toNat + (s.getV x).toNat) % 65536 ∧ t.isWritten .i = true ∧ t.pc = s.pc + 2#16 ∧
      Keeps [.pc, .i, .written .i] s t) ∧
    (s.readable [.v x] = true → ∃ t, exec (.ldF x) s = .next t ∧
      t.i.toNat = (s.cfg.fontBase + s.cfg.glyphBytes * (s.getV x).toNat) % 65536 ∧ t.isWritten .i = true ∧
      t.pc = s.pc + 2#16 ∧ Keeps [.pc, .i, .written .i] s t)

/-- R145 (its bounds and font checks are the spec's decisions D5, D7; log entries 11, 14): where its three bytes may be
stored, the BCD store writes the decimal digits of `V[x]` there, most significant first, and nothing else. -/
def Obligations.BcdStoreWritesDigits : Prop :=
  ∀ (x : Nibble) (s : State), s.readable [.v x, .i] = true → Memory.wf s.cfg s.mem →
    (∀ k, k < 3 → Storable s.cfg (s.i.toNat + k)) → ∃ t, exec (.ldB x) s = .next t ∧
      (t.readByte s.i.toNat).toNat = (s.getV x).toNat / 100 ∧
      (t.readByte (s.i.toNat + 1)).toNat = (s.getV x).toNat / 10 % 10 ∧
      (t.readByte (s.i.toNat + 2)).toNat = (s.getV x).toNat % 10 ∧
      t.pc = s.pc + 2#16 ∧ Keeps (.pc :: byteParts s.i.toNat 3) s t

/-- R146 (the checks as for R145): where its bytes may be stored, the register dump writes registers 0 to `x` at `I` on, and
nothing else; `I` is unchanged. -/
def Obligations.RegisterDumpStoresRegisters : Prop :=
  ∀ (x : Nibble) (s : State), s.readable (reads (.ldMemVx x)) = true → Memory.wf s.cfg s.mem →
    (∀ k, k ≤ x.toNat → Storable s.cfg (s.i.toNat + k)) → ∃ t, exec (.ldMemVx x) s = .next t ∧
      (∀ k, k ≤ x.toNat → t.readByte (s.i.toNat + k) = s.getV (BitVec.ofNat 4 k)) ∧
      t.pc = s.pc + 2#16 ∧ Keeps (.pc :: byteParts s.i.toNat (x.toNat + 1)) s t

/-- R147 (the bounds check is the spec's decision D5; log entry 11): where its bytes are inside memory, the register load
writes registers 0 to `x` from `I` on, and nothing else. -/
def Obligations.RegisterLoadReadsMemory : Prop :=
  ∀ (x : Nibble) (s : State), s.readable [.i] = true → s.i.toNat + x.toNat < s.cfg.memSize →
    ∃ t, exec (.ldVxMem x) s = .next t ∧
      (∀ k, k ≤ x.toNat → t.getV (BitVec.ofNat 4 k) = s.readByte (s.i.toNat + k) ∧
        t.isWritten (.v (BitVec.ofNat 4 k)) = true) ∧
      t.pc = s.pc + 2#16 ∧ Keeps (.pc :: vPartsUpTo x) s t

/-- R144, R202, R218, R221 (the spec's decisions D5, D7, D27, D29; log entries 11, 14, 24): a store whose first address that
fails is `I + k` takes the fault of that address and stores nothing. -/
def Obligations.FailedStoreReportsFirstAddress : Prop :=
  ∀ (i : Instr) (m k : Nat) (s : State), (∃ x, i = .ldB x ∧ m = 3) ∨ (∃ x, i = .ldMemVx x ∧ m = x.toNat + 1) →
    s.readable (reads i) = true → k < m → (∀ j, j < k → Storable s.cfg (s.i.toNat + j)) →
    (s.cfg.memSize ≤ s.i.toNat + k → ∃ t, exec i s = .next t ∧
      TookFault ⟨.memoryOutOfRange, some (encode i), s.pc, some (s.i.toNat + k)⟩ s t) ∧
    (s.i.toNat + k < s.cfg.memSize → ¬Storable s.cfg (s.i.toNat + k) → ∃ t, exec i s = .next t ∧
      TookFault ⟨.fontRegionWrite, some (encode i), s.pc, some (s.i.toNat + k)⟩ s t)

/-- R144, R163, R202 (the spec's decisions D5, D28; log entries 11, 24): a register load or a draw whose first address outside
memory is `I + k` takes `MemoryOutOfRange` and loads and draws nothing. -/
def Obligations.FailedLoadReportsFirstAddress : Prop :=
  ∀ (i : Instr) (m k : Nat) (s : State), (∃ x, i = .ldVxMem x ∧ m = x.toNat + 1) ∨ (∃ x y n, i = .drw x y n ∧ m = n.toNat) →
    s.readable (reads i) = true → k < m → (∀ j, j < k → s.i.toNat + j < s.cfg.memSize) →
    s.cfg.memSize ≤ s.i.toNat + k → ∃ t, exec i s = .next t ∧
      TookFault ⟨.memoryOutOfRange, some (encode i), s.pc, some (s.i.toNat + k)⟩ s t

/-- 95_test_vectors.md S9: a register load of as many registers, at any later state with the same memory and the same `I`,
restores what a register dump stored. -/
def Obligations.DumpThenLoadRestores : Prop :=
  ∀ (x : Nibble) (s : State), s.readable (reads (.ldMemVx x)) = true → Memory.wf s.cfg s.mem →
    (∀ k, k ≤ x.toNat → Storable s.cfg (s.i.toNat + k)) → ∃ t, exec (.ldMemVx x) s = .next t ∧ t.i = s.i ∧
      ∀ u : State, u.cfg = t.cfg → u.mem = t.mem → u.i = t.i → u.readable [.i] = true →
        ∃ w, exec (.ldVxMem x) u = .next w ∧ w.i = s.i ∧
          ∀ k, k ≤ x.toNat → w.getV (BitVec.ofNat 4 k) = s.getV (BitVec.ofNat 4 k)

/-- R63 (the spec's decision D23; log entry 26): a word that a register dump stores right after itself is the word the next
step fetches. -/
def Obligations.StoreIsSeenByNextFetch : Prop :=
  ∀ (x : Nibble) (s : State), s.readable (reads (.ldMemVx x)) = true → Memory.wf s.cfg s.mem →
    (∀ k, k ≤ x.toNat → Storable s.cfg (s.i.toNat + k)) → 1 ≤ x.toNat → s.i = s.pc + 2#16 →
    ∃ t, exec (.ldMemVx x) s = .next t ∧ t.pc = s.i ∧ t.fetchWord = wordOfBytes (s.getV 0#4) (s.getV 1#4)

/-! ### Display -/

/-- R162: clear screen clears every pixel, sets `DIRTY`, and does nothing else. -/
def Obligations.ClearScreenClearsEveryPixel : Prop :=
  ∀ s : State, ∃ t, exec .cls s = .next t ∧ (∀ c r, pixel t.disp c r = false) ∧ dispWf s.cfg t.disp ∧ t.dirty = true ∧
    t.pc = s.pc + 2#16 ∧ Keeps [.pc, .disp, .dirty] s t

/-- R161, R163 to R166 (bit order, clipping of the start, and the dirty flag are the spec's decisions D18, D19, D28; log
entries 21, 22, 24): a draw inverts exactly the pixels its sprite sets, sets `VF` to 1 iff one of them was set, marks the
display dirty iff there is one, and does nothing else. -/
def Obligations.DrawInvertsSpritePixels : Prop :=
  ∀ (x y n : Nibble) (s : State), s.readable [.v x, .v y, .i] = true →
    (∀ k, k < n.toNat → s.i.toNat + k < s.cfg.memSize) → dispWf s.cfg s.disp → ∃ t, exec (.drw x y n) s = .next t ∧
      (∀ c r, pixel t.disp c r = true ↔
        ¬(pixel s.disp c r = true ↔ SpriteSets s (s.getV x).toNat (s.getV y).toNat n.toNat c r)) ∧
      dispWf s.cfg t.disp ∧
      ((∃ c r, SpriteSets s (s.getV x).toNat (s.getV y).toNat n.toNat c r ∧ pixel s.disp c r = true) →
        t.getV VF = 1#8) ∧
      ((¬∃ c r, SpriteSets s (s.getV x).toNat (s.getV y).toNat n.toNat c r ∧ pixel s.disp c r = true) →
        t.getV VF = 0#8) ∧
      (t.dirty = true ↔ s.dirty = true ∨ ∃ c r, SpriteSets s (s.getV x).toNat (s.getV y).toNat n.toNat c r) ∧
      t.isWritten (.v VF) = true ∧ t.pc = s.pc + 2#16 ∧ Keeps [.pc, .disp, .dirty, .v VF, .written (.v VF)] s t

/-- 95_test_vectors.md S4: drawing the same sprite twice at the same place restores the display, and the second draw's flag
says whether the first set a pixel that was clear. (With a coordinate in `VF` the second draw is at another place.) -/
def Obligations.DrawTwiceRestoresDisplay : Prop :=
  ∀ (x y n : Nibble) (s : State), x ≠ VF → y ≠ VF → s.readable [.v x, .v y, .i] = true →
    (∀ k, k < n.toNat → s.i.toNat + k < s.cfg.memSize) → dispWf s.cfg s.disp →
    ∃ t u, exec (.drw x y n) s = .next t ∧ exec (.drw x y n) t = .next u ∧ u.disp = s.disp ∧
      (u.getV VF = 1#8 ↔
        ∃ c r, SpriteSets s (s.getV x).toNat (s.getV y).toNat n.toNat c r ∧ pixel s.disp c r = false)

/-! ### Keys and timers -/

/-- R181, R182, R187, R209 (what an index above 15 does is the spec's decision D11; log entry 18): the key skips test the key
whose index is `V[x]`, or its low nibble under `mask`; under the default policy a larger index takes
`KeyIndexOutOfRange`. -/
def Obligations.KeySkipsTestSampledKey : Prop :=
  ∀ (x : Nibble) (s : State), s.readable [.v x] = true →
    (((s.getV x).toNat < 16 ∨ s.cfg.keyIndex = .mask) →
      ∃ (keys : Keys) (t u : State), (∀ inp, s.sample = some inp → keys = inp.keys) ∧
        exec (.skp x) s = .next t ∧ Skipped (keys[(s.getV x).toNat % 16]'(Nat.mod_lt _ (by decide)) = true) s t ∧
        exec (.sknp x) s = .next u ∧ Skipped (keys[(s.getV x).toNat % 16]'(Nat.mod_lt _ (by decide)) = false) s u) ∧
    (16 ≤ (s.getV x).toNat → s.cfg.keyIndex = .fault →
      (∃ t, exec (.skp x) s = .next t ∧ TookFault ⟨.keyIndexOutOfRange, some (encode (.skp x)), s.pc, none⟩ s t) ∧
      (∃ t, exec (.sknp x) s = .next t ∧ TookFault ⟨.keyIndexOutOfRange, some (encode (.sknp x)), s.pc, none⟩ s t))

/-- R184, R43 (that a key held down ends the wait is the spec's decision D12; log entry 7): with no key down the key wait
leaves the state as it was, `PC` at itself; else it writes the index of a key that is down. -/
def Obligations.KeyWaitRepeatsOrTakesKey : Prop :=
  ∀ (x : Nibble) (s : State), ∃ (keys : Keys) (t : State), (∀ inp, s.sample = some inp → keys = inp.keys) ∧
    exec (.ldVxK x) s = .next t ∧
    ((∀ k : Nibble, keys[k.toNat]'k.isLt = false) → Keeps [] s t) ∧
    ((∃ k : Nibble, keys[k.toNat]'k.isLt = true) →
      ∃ (k : Nibble) (b : Byte), keys[k.toNat]'k.isLt = true ∧ b.toNat = k.toNat ∧ WroteV x b s t)

/-- R43 (the spec's decision D12; log entry 7): `choose_pressed()` gives nothing exactly when no key is down, only keys that
are down, and every one of them for some choice. -/
def Obligations.PressedAnswerIsAnyKeyDown : Prop :=
  ∀ keys : Keys,
    (∀ pick, choosePressed keys pick = none ↔ ∀ k : Nibble, keys[k.toNat]'k.isLt = false) ∧
    ∀ k : Nibble, (∃ pick, choosePressed keys pick = some k) ↔ keys[k.toNat]'k.isLt = true

/-- R183, R185: the delay timer is read into a register and set from one, and nothing else changes. -/
def Obligations.DelayTimerTransfers : Prop :=
  ∀ (x : Nibble) (s : State),
    (s.readable [.dt] = true → ∃ t, exec (.ldVxDt x) s = .next t ∧ WroteV x s.dt s t) ∧
    (s.readable [.v x] = true → ∃ t, exec (.ldDtVx x) s = .next t ∧ t.dt = s.getV x ∧ t.isWritten .dt = true ∧
      t.pc = s.pc + 2#16 ∧ Keeps [.pc, .dt, .written .dt] s t)

/-- R186: the sound timer is set from a register, and nothing else changes, the tone included; a timer set to 1 sounds no
tone at the next frame tick (that last clause is the spec's own inference from R211 and R215). -/
def Obligations.SoundTimerIsSet : Prop :=
  ∀ (x : Nibble) (s : State), s.readable [.v x] = true → ∃ t, exec (.ldStVx x) s = .next t ∧ t.st = s.getV x ∧
    t.isWritten .st = true ∧ t.pc = s.pc + 2#16 ∧ Keeps [.pc, .st, .written .st] s t ∧
    (s.getV x = 1#8 → t.frameTick.tone = false)

/-! ### The frame tick -/

/-- R211, R215, R222: a frame tick takes one off each timer, saturating at 0, then sets the tone by `ST` and emits it; it changes
neither `PC` nor anything else a program can read but `DT`. That a tick from the queue is the next event is the model's choice
of log entry 4; that under `unwritten_faults` it takes no fault at a timer nothing has written, and marks nothing, is the model's
choice of log entry 10. -/
def Obligations.FrameTickCountsDownAndSetsTone : Prop :=
  ∀ (s : State) (rest : List Event), s.halt = .running → s.pending = .frameTick :: rest → ∃ t, step s = .next t ∧
    t.dt.toNat = s.dt.toNat - 1 ∧ t.st.toNat = s.st.toNat - 1 ∧ (t.tone = true ↔ t.st ≠ 0#8) ∧
    (∃ before, t.outputs = before ++ [.setTone t.tone]) ∧ t.pending = rest ∧
    Keeps [.dt, .st, .dirty, .tone, .outputs, .pending] s t

/-- R210, R214 (that the present clears `DIRTY` is the spec's decision D18; log entry 22): a frame tick presents the buffer
before the tone, only where it is dirty, and leaves it clean. -/
def Obligations.FrameTickPresentsDirtyDisplay : Prop :=
  ∀ (s : State) (rest : List Event), s.halt = .running → s.pending = .frameTick :: rest → ∃ t, step s = .next t ∧
    t.dirty = false ∧ (s.dirty = true → t.outputs = s.outputs ++ [.present s.disp, .setTone t.tone]) ∧
    (s.dirty = false → t.outputs = s.outputs ++ [.setTone t.tone])

/-- R212: in a run that ends with the block running and meets no instruction that sets the timer, a timer holds its starting
value less the number of frame ticks, never below 0. -/
def Obligations.TimersSaturateAtZero : Prop :=
  ∀ (es : List Event) (s t : State), deliverAll es s = .next t → t.halt = .running →
    (RunAvoids (fun i => ∃ x, i = .ldDtVx x) es s → t.dt.toNat = s.dt.toNat - frameTicks es) ∧
    (RunAvoids (fun i => ∃ x, i = .ldStVx x) es s → t.st.toNat = s.st.toNat - frameTicks es)

/-- R242 with R212 (fairness is the spec's decision D17; log entry 25): under a fair sequence of events there is a point from
which on, in every run that still runs and has met no instruction that sets `DT`, `DT` is 0. -/
def Obligations.FairRunCountsDelayTimerToZero : Prop :=
  ∀ events : Nat → Event, Fair events → ∃ n, ∀ m, n ≤ m → ∀ s t : State,
    deliverAll ((List.range m).map events) s = .next t → t.halt = .running →
    RunAvoids (fun i => ∃ x, i = .ldDtVx x) ((List.range m).map events) s → t.dt = 0#8

/-! ### Load, reset and schedule -/

/-- R233, R234 (the program region is the spec's decision D3; log entry 2): a ROM that fits is loaded verbatim over zeroed
memory and the font, with `PC` at its start and an empty stack, in a state that meets the invariant; a larger one fails. -/
def Obligations.LoadPlacesRomAndFont : Prop :=
  ∀ (c : Config) (rom : List Byte), c.Wf →
    (rom.length ≤ c.programEnd - c.progOrigin → ∃ s, load c rom = .ok s ∧ s.cfg = c ∧ s.pc.toNat = c.progOrigin ∧
      s.stack = [] ∧ s.halt = .running ∧ BlockInv s ∧
      (∀ k, k < rom.length → some (s.readByte (c.progOrigin + k)) = rom[k]?) ∧
      ∀ a, a < c.progOrigin ∨ c.progOrigin + rom.length ≤ a →
        (c.fontBase ≤ a ∧ a < c.fontBase + 16 * c.glyphBytes → some (s.readByte a) = c.font[a - c.fontBase]?) ∧
        (¬(c.fontBase ≤ a ∧ a < c.fontBase + 16 * c.glyphBytes) → s.readByte a = 0#8)) ∧
    (c.programEnd - c.progOrigin < rom.length → load c rom = .error .romTooLarge)

/-- R34, R233, R56 with the default parameters of R10 (the zero of the registers, timers and display is the spec's decision D14,
log entry 1; the two font bytes are of the table of R56, the spec's decision D15 from general knowledge, G4, PRESUMED in log
entry 19): what reset leaves. -/
def Obligations.ResetState : Prop :=
  State.reset.pc = 0x200#16 ∧ State.reset.stack = [] ∧ State.reset.halt = .running ∧
    State.reset.readByte 0x19 = 0xF0#8 ∧ State.reset.readByte 0x1A = 0x80#8 ∧ State.reset.readByte 0x200 = 0#8 ∧
    (∀ x, State.reset.getV x = 0#8) ∧ State.reset.i = 0#16 ∧ State.reset.dt = 0#8 ∧ State.reset.st = 0#8 ∧
    State.reset.dirty = false ∧ State.reset.tone = false ∧ ∀ c r, pixel State.reset.disp c r = false

/-- R240, R241, R36: one iteration of the ideal-clock scheduler, `passed` after the one before it, is a run of the interleaving
model: the opcode tick if due at the elapsed time, then the frame tick if due, each due time advancing by its own period. The
elapsed time grows by the time passed, so it never goes back, and what the ticks do changes nothing of the clock. The order on
a tie is the spec's decision D30 (log entry 25); that the due times advance also where the opcode step faults, and the units
they are counted in, one `hz` for a whole run, are the model's choices (log entries 31, 32). -/
def Obligations.IterationIsARunOfDueEvents : Prop :=
  ∀ (hz passed : Nat) (inp : Inputs) (s : State), s.halt = .running → ∃ (es : List Event) (k : Clock) (t : State),
    iteration hz passed inp s = .next t ∧ deliverAll es { s with clock := k } = .next t ∧ t.clock = k ∧
    k.elapsed = s.clock.elapsed + passed ∧
    es = (if s.clock.opcodeDue ≤ k.elapsed then [.opcodeTick inp] else []) ++
      (if s.clock.frameDue ≤ k.elapsed then [.frameTick] else []) ∧
    k.opcodeDue = (if s.clock.opcodeDue ≤ k.elapsed then s.clock.opcodeDue + s.cfg.frameHz else s.clock.opcodeDue) ∧
    k.frameDue = (if s.clock.frameDue ≤ k.elapsed then s.clock.frameDue + hz else s.clock.frameDue)

/-- R244 (the spec's decision D21; log entry 29): at a jump to itself, an opcode tick changes nothing of the block and a frame tick changes
only the timers, `DIRTY` and `TONE`; both leave it at rest. -/
def Obligations.RestPersists : Prop :=
  ∀ s : State, AtRest s →
    (∀ inp, ∃ t, deliver (.opcodeTick inp) s = .next t ∧ Keeps [.sample] s t ∧ AtRest t) ∧
    (∃ t, deliver .frameTick s = .next t ∧ Keeps [.dt, .st, .dirty, .tone, .outputs] s t ∧ AtRest t)

/-! ### Rules of the whole machine -/

/-- Reset meets the invariant. -/
def Obligations.ResetMeetsInvariant : Prop := BlockInv State.reset

/-- R27, R30, R50: every step keeps the invariant: the parameters fit together, memory keeps its canonical form, the stack
stays within its capacity and the display keeps its size. -/
def Obligations.StepKeepsInvariant : Prop :=
  ∀ s t : State, BlockInv s → step s = .next t → BlockInv t

/-- R53, R218 (the spec's decision D7; log entry 14): under the default policy no step changes a byte of the font. -/
def Obligations.FontIsNeverOverwritten : Prop :=
  ∀ s t : State, s.cfg.fontWrite = .fault → step s = .next t →
    ∀ a, s.cfg.fontBase ≤ a → a < s.cfg.fontBase + 16 * s.cfg.glyphBytes → t.readByte a = s.readByte a

/-- R101's corner case, under the policy of the spec's decision D6 (log entry 13): return addresses stay even. -/
def Obligations.ReturnAddressesStayEven : Prop :=
  ∀ s t : State, s.cfg.oddPc = .fault → (∀ a ∈ s.stack, a.toNat % 2 = 0) → step s = .next t →
    ∀ a ∈ t.stack, a.toNat % 2 = 0

/-- R9, R10: no step changes the parameters. -/
def Obligations.ParametersNeverChange : Prop :=
  ∀ s t : State, step s = .next t → t.cfg = s.cfg

/-- R27: only a call pushes, the address after it, and only a return pops. -/
def Obligations.OnlyCallPushesAndReturnPops : Prop :=
  ∀ (i : Instr) (s t : State), exec i s = .next t →
    t.stack = s.stack ∨ (∃ nnn, i = .call nnn ∧ t.stack = s.stack ++ [s.pc + 2#16]) ∨
      (i = .ret ∧ ∃ a, s.stack = t.stack ++ [a])

/-- R23: only `Annn`, `Fx1E` and `Fx29` change `I`. -/
def Obligations.OnlyThreeInstructionsChangeI : Prop :=
  ∀ (i : Instr) (s t : State), exec i s = .next t → t.i ≠ s.i →
    (∃ nnn, i = .ldI nnn) ∨ (∃ x, i = .addI x) ∨ ∃ x, i = .ldF x

/-- R59: only the two stores change memory, and only the bytes of their transfers. -/
def Obligations.OnlyStoresChangeMemory : Prop :=
  ∀ (i : Instr) (s t : State) (a : Nat), exec i s = .next t → t.readByte a ≠ s.readByte a →
    (∃ x, i = .ldB x ∧ s.i.toNat ≤ a ∧ a < s.i.toNat + 3) ∨
      ∃ x, i = .ldMemVx x ∧ s.i.toNat ≤ a ∧ a ≤ s.i.toNat + x.toNat

/-- R30, R31, R166 (the spec's decision D18; log entry 22): only clear screen and draw change the display or the dirty flag,
and no instruction clears the flag. -/
def Obligations.OnlyClearAndDrawTouchDisplay : Prop :=
  ∀ (i : Instr) (s t : State), exec i s = .next t →
    (t.disp ≠ s.disp ∨ t.dirty ≠ s.dirty → i = .cls ∨ ∃ x y n, i = .drw x y n) ∧ (s.dirty = true → t.dirty = true)

/-- R21, R22: an instruction changes only the registers it writes, `VF` among them where it writes a flag. -/
def Obligations.OnlyNamedRegistersChange : Prop :=
  ∀ (i : Instr) (s t : State) (r : Nibble), exec i s = .next t → t.getV r ≠ s.getV r → r ∈ writes i

/-- R29, R37, R213: no instruction reads `ST` or `TONE`: with another value there an instruction does the same, but for that
value; only `Fx18` writes `ST`, and none writes `TONE`. -/
def Obligations.SoundStateIsNotReadable : Prop :=
  ∀ (i : Instr) (s t : State) (b : Byte) (p : Bool), exec i s = .next t →
    exec i { s with tone := p } = .next { t with tone := p } ∧
    ((∀ x, i ≠ .ldStVx x) → exec i { s with st := b } = .next { t with st := b } ∧ t.st = s.st)
end

