-- ==== Sys2Proof/Laws/State.lean ====
section
/-! SUPPORT. One lemma for each field of the state and each update: what the update leaves there. -/

namespace Sys2Proof.Machine

/-! ### State.setV -/

@[simp] theorem State.setV_cfg (s : State) (x : Nibble) (b : Byte) : (s.setV x b).cfg = s.cfg := rfl
@[simp] theorem State.setV_v (s : State) (x : Nibble) (b : Byte) : (s.setV x b).v = s.v.set x.toNat b x.isLt := rfl
@[simp] theorem State.setV_i (s : State) (x : Nibble) (b : Byte) : (s.setV x b).i = s.i := rfl
@[simp] theorem State.setV_pc (s : State) (x : Nibble) (b : Byte) : (s.setV x b).pc = s.pc := rfl
@[simp] theorem State.setV_stack (s : State) (x : Nibble) (b : Byte) : (s.setV x b).stack = s.stack := rfl
@[simp] theorem State.setV_dt (s : State) (x : Nibble) (b : Byte) : (s.setV x b).dt = s.dt := rfl
@[simp] theorem State.setV_st (s : State) (x : Nibble) (b : Byte) : (s.setV x b).st = s.st := rfl
@[simp] theorem State.setV_disp (s : State) (x : Nibble) (b : Byte) : (s.setV x b).disp = s.disp := rfl
@[simp] theorem State.setV_dirty (s : State) (x : Nibble) (b : Byte) : (s.setV x b).dirty = s.dirty := rfl
@[simp] theorem State.setV_tone (s : State) (x : Nibble) (b : Byte) : (s.setV x b).tone = s.tone := rfl
@[simp] theorem State.setV_mem (s : State) (x : Nibble) (b : Byte) : (s.setV x b).mem = s.mem := rfl
@[simp] theorem State.setV_halt (s : State) (x : Nibble) (b : Byte) : (s.setV x b).halt = s.halt := rfl
@[simp] theorem State.setV_clock (s : State) (x : Nibble) (b : Byte) : (s.setV x b).clock = s.clock := rfl
@[simp] theorem State.setV_sample (s : State) (x : Nibble) (b : Byte) : (s.setV x b).sample = s.sample := rfl
@[simp] theorem State.setV_pending (s : State) (x : Nibble) (b : Byte) : (s.setV x b).pending = s.pending := rfl
@[simp] theorem State.setV_draws (s : State) (x : Nibble) (b : Byte) : (s.setV x b).draws = s.draws := rfl
@[simp] theorem State.setV_outputs (s : State) (x : Nibble) (b : Byte) : (s.setV x b).outputs = s.outputs := rfl
@[simp] theorem State.setV_readByte (s : State) (x : Nibble) (b : Byte) (k : Nat) : (s.setV x b).readByte k = s.readByte k := rfl
@[simp] theorem State.setV_inputs (s : State) (x : Nibble) (b : Byte) : (s.setV x b).inputs = s.inputs := rfl

/-! ### State.setI -/

@[simp] theorem State.setI_cfg (s : State) (a : Addr) : (s.setI a).cfg = s.cfg := rfl
@[simp] theorem State.setI_v (s : State) (a : Addr) : (s.setI a).v = s.v := rfl
@[simp] theorem State.setI_i (s : State) (a : Addr) : (s.setI a).i = a := rfl
@[simp] theorem State.setI_pc (s : State) (a : Addr) : (s.setI a).pc = s.pc := rfl
@[simp] theorem State.setI_stack (s : State) (a : Addr) : (s.setI a).stack = s.stack := rfl
@[simp] theorem State.setI_dt (s : State) (a : Addr) : (s.setI a).dt = s.dt := rfl
@[simp] theorem State.setI_st (s : State) (a : Addr) : (s.setI a).st = s.st := rfl
@[simp] theorem State.setI_disp (s : State) (a : Addr) : (s.setI a).disp = s.disp := rfl
@[simp] theorem State.setI_dirty (s : State) (a : Addr) : (s.setI a).dirty = s.dirty := rfl
@[simp] theorem State.setI_tone (s : State) (a : Addr) : (s.setI a).tone = s.tone := rfl
@[simp] theorem State.setI_mem (s : State) (a : Addr) : (s.setI a).mem = s.mem := rfl
@[simp] theorem State.setI_halt (s : State) (a : Addr) : (s.setI a).halt = s.halt := rfl
@[simp] theorem State.setI_clock (s : State) (a : Addr) : (s.setI a).clock = s.clock := rfl
@[simp] theorem State.setI_sample (s : State) (a : Addr) : (s.setI a).sample = s.sample := rfl
@[simp] theorem State.setI_pending (s : State) (a : Addr) : (s.setI a).pending = s.pending := rfl
@[simp] theorem State.setI_draws (s : State) (a : Addr) : (s.setI a).draws = s.draws := rfl
@[simp] theorem State.setI_outputs (s : State) (a : Addr) : (s.setI a).outputs = s.outputs := rfl
@[simp] theorem State.setI_getV (s : State) (a : Addr) (y : Nibble) : (s.setI a).getV y = s.getV y := rfl
@[simp] theorem State.setI_readByte (s : State) (a : Addr) (k : Nat) : (s.setI a).readByte k = s.readByte k := rfl
@[simp] theorem State.setI_inputs (s : State) (a : Addr) : (s.setI a).inputs = s.inputs := rfl

/-! ### State.setDT -/

@[simp] theorem State.setDT_cfg (s : State) (b : Byte) : (s.setDT b).cfg = s.cfg := rfl
@[simp] theorem State.setDT_v (s : State) (b : Byte) : (s.setDT b).v = s.v := rfl
@[simp] theorem State.setDT_i (s : State) (b : Byte) : (s.setDT b).i = s.i := rfl
@[simp] theorem State.setDT_pc (s : State) (b : Byte) : (s.setDT b).pc = s.pc := rfl
@[simp] theorem State.setDT_stack (s : State) (b : Byte) : (s.setDT b).stack = s.stack := rfl
@[simp] theorem State.setDT_dt (s : State) (b : Byte) : (s.setDT b).dt = b := rfl
@[simp] theorem State.setDT_st (s : State) (b : Byte) : (s.setDT b).st = s.st := rfl
@[simp] theorem State.setDT_disp (s : State) (b : Byte) : (s.setDT b).disp = s.disp := rfl
@[simp] theorem State.setDT_dirty (s : State) (b : Byte) : (s.setDT b).dirty = s.dirty := rfl
@[simp] theorem State.setDT_tone (s : State) (b : Byte) : (s.setDT b).tone = s.tone := rfl
@[simp] theorem State.setDT_mem (s : State) (b : Byte) : (s.setDT b).mem = s.mem := rfl
@[simp] theorem State.setDT_halt (s : State) (b : Byte) : (s.setDT b).halt = s.halt := rfl
@[simp] theorem State.setDT_clock (s : State) (b : Byte) : (s.setDT b).clock = s.clock := rfl
@[simp] theorem State.setDT_sample (s : State) (b : Byte) : (s.setDT b).sample = s.sample := rfl
@[simp] theorem State.setDT_pending (s : State) (b : Byte) : (s.setDT b).pending = s.pending := rfl
@[simp] theorem State.setDT_draws (s : State) (b : Byte) : (s.setDT b).draws = s.draws := rfl
@[simp] theorem State.setDT_outputs (s : State) (b : Byte) : (s.setDT b).outputs = s.outputs := rfl
@[simp] theorem State.setDT_getV (s : State) (b : Byte) (y : Nibble) : (s.setDT b).getV y = s.getV y := rfl
@[simp] theorem State.setDT_readByte (s : State) (b : Byte) (k : Nat) : (s.setDT b).readByte k = s.readByte k := rfl
@[simp] theorem State.setDT_inputs (s : State) (b : Byte) : (s.setDT b).inputs = s.inputs := rfl

/-! ### State.setST -/

@[simp] theorem State.setST_cfg (s : State) (b : Byte) : (s.setST b).cfg = s.cfg := rfl
@[simp] theorem State.setST_v (s : State) (b : Byte) : (s.setST b).v = s.v := rfl
@[simp] theorem State.setST_i (s : State) (b : Byte) : (s.setST b).i = s.i := rfl
@[simp] theorem State.setST_pc (s : State) (b : Byte) : (s.setST b).pc = s.pc := rfl
@[simp] theorem State.setST_stack (s : State) (b : Byte) : (s.setST b).stack = s.stack := rfl
@[simp] theorem State.setST_dt (s : State) (b : Byte) : (s.setST b).dt = s.dt := rfl
@[simp] theorem State.setST_st (s : State) (b : Byte) : (s.setST b).st = b := rfl
@[simp] theorem State.setST_disp (s : State) (b : Byte) : (s.setST b).disp = s.disp := rfl
@[simp] theorem State.setST_dirty (s : State) (b : Byte) : (s.setST b).dirty = s.dirty := rfl
@[simp] theorem State.setST_tone (s : State) (b : Byte) : (s.setST b).tone = s.tone := rfl
@[simp] theorem State.setST_mem (s : State) (b : Byte) : (s.setST b).mem = s.mem := rfl
@[simp] theorem State.setST_halt (s : State) (b : Byte) : (s.setST b).halt = s.halt := rfl
@[simp] theorem State.setST_clock (s : State) (b : Byte) : (s.setST b).clock = s.clock := rfl
@[simp] theorem State.setST_sample (s : State) (b : Byte) : (s.setST b).sample = s.sample := rfl
@[simp] theorem State.setST_pending (s : State) (b : Byte) : (s.setST b).pending = s.pending := rfl
@[simp] theorem State.setST_draws (s : State) (b : Byte) : (s.setST b).draws = s.draws := rfl
@[simp] theorem State.setST_outputs (s : State) (b : Byte) : (s.setST b).outputs = s.outputs := rfl
@[simp] theorem State.setST_getV (s : State) (b : Byte) (y : Nibble) : (s.setST b).getV y = s.getV y := rfl
@[simp] theorem State.setST_readByte (s : State) (b : Byte) (k : Nat) : (s.setST b).readByte k = s.readByte k := rfl
@[simp] theorem State.setST_inputs (s : State) (b : Byte) : (s.setST b).inputs = s.inputs := rfl

/-! ### State.setPC -/

@[simp] theorem State.setPC_cfg (s : State) (a : Addr) : (s.setPC a).cfg = s.cfg := rfl
@[simp] theorem State.setPC_v (s : State) (a : Addr) : (s.setPC a).v = s.v := rfl
@[simp] theorem State.setPC_i (s : State) (a : Addr) : (s.setPC a).i = s.i := rfl
@[simp] theorem State.setPC_pc (s : State) (a : Addr) : (s.setPC a).pc = a := rfl
@[simp] theorem State.setPC_stack (s : State) (a : Addr) : (s.setPC a).stack = s.stack := rfl
@[simp] theorem State.setPC_dt (s : State) (a : Addr) : (s.setPC a).dt = s.dt := rfl
@[simp] theorem State.setPC_st (s : State) (a : Addr) : (s.setPC a).st = s.st := rfl
@[simp] theorem State.setPC_disp (s : State) (a : Addr) : (s.setPC a).disp = s.disp := rfl
@[simp] theorem State.setPC_dirty (s : State) (a : Addr) : (s.setPC a).dirty = s.dirty := rfl
@[simp] theorem State.setPC_tone (s : State) (a : Addr) : (s.setPC a).tone = s.tone := rfl
@[simp] theorem State.setPC_mem (s : State) (a : Addr) : (s.setPC a).mem = s.mem := rfl
@[simp] theorem State.setPC_halt (s : State) (a : Addr) : (s.setPC a).halt = s.halt := rfl
@[simp] theorem State.setPC_clock (s : State) (a : Addr) : (s.setPC a).clock = s.clock := rfl
@[simp] theorem State.setPC_written (s : State) (a : Addr) : (s.setPC a).written = s.written := rfl
@[simp] theorem State.setPC_sample (s : State) (a : Addr) : (s.setPC a).sample = s.sample := rfl
@[simp] theorem State.setPC_pending (s : State) (a : Addr) : (s.setPC a).pending = s.pending := rfl
@[simp] theorem State.setPC_draws (s : State) (a : Addr) : (s.setPC a).draws = s.draws := rfl
@[simp] theorem State.setPC_outputs (s : State) (a : Addr) : (s.setPC a).outputs = s.outputs := rfl
@[simp] theorem State.setPC_getV (s : State) (a : Addr) (y : Nibble) : (s.setPC a).getV y = s.getV y := rfl
@[simp] theorem State.setPC_isWritten (s : State) (a : Addr) (r : Source) : (s.setPC a).isWritten r = s.isWritten r := rfl
@[simp] theorem State.setPC_readByte (s : State) (a : Addr) (k : Nat) : (s.setPC a).readByte k = s.readByte k := rfl
@[simp] theorem State.setPC_readable (s : State) (a : Addr) (rs : List Source) : (s.setPC a).readable rs = s.readable rs := rfl
@[simp] theorem State.setPC_inputs (s : State) (a : Addr) : (s.setPC a).inputs = s.inputs := rfl

/-! ### State.advance -/

@[simp] theorem State.advance_cfg (s : State) : (s.advance).cfg = s.cfg := rfl
@[simp] theorem State.advance_v (s : State) : (s.advance).v = s.v := rfl
@[simp] theorem State.advance_i (s : State) : (s.advance).i = s.i := rfl
@[simp] theorem State.advance_pc (s : State) : (s.advance).pc = s.pc + 2#16 := rfl
@[simp] theorem State.advance_stack (s : State) : (s.advance).stack = s.stack := rfl
@[simp] theorem State.advance_dt (s : State) : (s.advance).dt = s.dt := rfl
@[simp] theorem State.advance_st (s : State) : (s.advance).st = s.st := rfl
@[simp] theorem State.advance_disp (s : State) : (s.advance).disp = s.disp := rfl
@[simp] theorem State.advance_dirty (s : State) : (s.advance).dirty = s.dirty := rfl
@[simp] theorem State.advance_tone (s : State) : (s.advance).tone = s.tone := rfl
@[simp] theorem State.advance_mem (s : State) : (s.advance).mem = s.mem := rfl
@[simp] theorem State.advance_halt (s : State) : (s.advance).halt = s.halt := rfl
@[simp] theorem State.advance_clock (s : State) : (s.advance).clock = s.clock := rfl
@[simp] theorem State.advance_written (s : State) : (s.advance).written = s.written := rfl
@[simp] theorem State.advance_sample (s : State) : (s.advance).sample = s.sample := rfl
@[simp] theorem State.advance_pending (s : State) : (s.advance).pending = s.pending := rfl
@[simp] theorem State.advance_draws (s : State) : (s.advance).draws = s.draws := rfl
@[simp] theorem State.advance_outputs (s : State) : (s.advance).outputs = s.outputs := rfl
@[simp] theorem State.advance_getV (s : State) (y : Nibble) : (s.advance).getV y = s.getV y := rfl
@[simp] theorem State.advance_isWritten (s : State) (r : Source) : (s.advance).isWritten r = s.isWritten r := rfl
@[simp] theorem State.advance_readByte (s : State) (k : Nat) : (s.advance).readByte k = s.readByte k := rfl
@[simp] theorem State.advance_readable (s : State) (rs : List Source) : (s.advance).readable rs = s.readable rs := rfl
@[simp] theorem State.advance_inputs (s : State) : (s.advance).inputs = s.inputs := rfl

/-! ### State.pushPC -/

@[simp] theorem State.pushPC_cfg (s : State) : (s.pushPC).cfg = s.cfg := rfl
@[simp] theorem State.pushPC_v (s : State) : (s.pushPC).v = s.v := rfl
@[simp] theorem State.pushPC_i (s : State) : (s.pushPC).i = s.i := rfl
@[simp] theorem State.pushPC_pc (s : State) : (s.pushPC).pc = s.pc := rfl
@[simp] theorem State.pushPC_stack (s : State) : (s.pushPC).stack = s.stack ++ [s.pc] := rfl
@[simp] theorem State.pushPC_dt (s : State) : (s.pushPC).dt = s.dt := rfl
@[simp] theorem State.pushPC_st (s : State) : (s.pushPC).st = s.st := rfl
@[simp] theorem State.pushPC_disp (s : State) : (s.pushPC).disp = s.disp := rfl
@[simp] theorem State.pushPC_dirty (s : State) : (s.pushPC).dirty = s.dirty := rfl
@[simp] theorem State.pushPC_tone (s : State) : (s.pushPC).tone = s.tone := rfl
@[simp] theorem State.pushPC_mem (s : State) : (s.pushPC).mem = s.mem := rfl
@[simp] theorem State.pushPC_halt (s : State) : (s.pushPC).halt = s.halt := rfl
@[simp] theorem State.pushPC_clock (s : State) : (s.pushPC).clock = s.clock := rfl
@[simp] theorem State.pushPC_written (s : State) : (s.pushPC).written = s.written := rfl
@[simp] theorem State.pushPC_sample (s : State) : (s.pushPC).sample = s.sample := rfl
@[simp] theorem State.pushPC_pending (s : State) : (s.pushPC).pending = s.pending := rfl
@[simp] theorem State.pushPC_draws (s : State) : (s.pushPC).draws = s.draws := rfl
@[simp] theorem State.pushPC_outputs (s : State) : (s.pushPC).outputs = s.outputs := rfl
@[simp] theorem State.pushPC_getV (s : State) (y : Nibble) : (s.pushPC).getV y = s.getV y := rfl
@[simp] theorem State.pushPC_isWritten (s : State) (r : Source) : (s.pushPC).isWritten r = s.isWritten r := rfl
@[simp] theorem State.pushPC_readByte (s : State) (k : Nat) : (s.pushPC).readByte k = s.readByte k := rfl
@[simp] theorem State.pushPC_readable (s : State) (rs : List Source) : (s.pushPC).readable rs = s.readable rs := rfl
@[simp] theorem State.pushPC_inputs (s : State) : (s.pushPC).inputs = s.inputs := rfl

/-! ### State.storeBytes -/

@[simp] theorem State.storeBytes_cfg (s : State) (a : Nat) (bs : List Byte) : (s.storeBytes a bs).cfg = s.cfg := rfl
@[simp] theorem State.storeBytes_v (s : State) (a : Nat) (bs : List Byte) : (s.storeBytes a bs).v = s.v := rfl
@[simp] theorem State.storeBytes_i (s : State) (a : Nat) (bs : List Byte) : (s.storeBytes a bs).i = s.i := rfl
@[simp] theorem State.storeBytes_pc (s : State) (a : Nat) (bs : List Byte) : (s.storeBytes a bs).pc = s.pc := rfl
@[simp] theorem State.storeBytes_stack (s : State) (a : Nat) (bs : List Byte) : (s.storeBytes a bs).stack = s.stack := rfl
@[simp] theorem State.storeBytes_dt (s : State) (a : Nat) (bs : List Byte) : (s.storeBytes a bs).dt = s.dt := rfl
@[simp] theorem State.storeBytes_st (s : State) (a : Nat) (bs : List Byte) : (s.storeBytes a bs).st = s.st := rfl
@[simp] theorem State.storeBytes_disp (s : State) (a : Nat) (bs : List Byte) : (s.storeBytes a bs).disp = s.disp := rfl
@[simp] theorem State.storeBytes_dirty (s : State) (a : Nat) (bs : List Byte) : (s.storeBytes a bs).dirty = s.dirty := rfl
@[simp] theorem State.storeBytes_tone (s : State) (a : Nat) (bs : List Byte) : (s.storeBytes a bs).tone = s.tone := rfl
@[simp] theorem State.storeBytes_mem (s : State) (a : Nat) (bs : List Byte) : (s.storeBytes a bs).mem = Memory.setMany s.cfg s.mem a bs := rfl
@[simp] theorem State.storeBytes_halt (s : State) (a : Nat) (bs : List Byte) : (s.storeBytes a bs).halt = s.halt := rfl
@[simp] theorem State.storeBytes_clock (s : State) (a : Nat) (bs : List Byte) : (s.storeBytes a bs).clock = s.clock := rfl
@[simp] theorem State.storeBytes_written (s : State) (a : Nat) (bs : List Byte) : (s.storeBytes a bs).written = s.written := rfl
@[simp] theorem State.storeBytes_sample (s : State) (a : Nat) (bs : List Byte) : (s.storeBytes a bs).sample = s.sample := rfl
@[simp] theorem State.storeBytes_pending (s : State) (a : Nat) (bs : List Byte) : (s.storeBytes a bs).pending = s.pending := rfl
@[simp] theorem State.storeBytes_draws (s : State) (a : Nat) (bs : List Byte) : (s.storeBytes a bs).draws = s.draws := rfl
@[simp] theorem State.storeBytes_outputs (s : State) (a : Nat) (bs : List Byte) : (s.storeBytes a bs).outputs = s.outputs := rfl
@[simp] theorem State.storeBytes_getV (s : State) (a : Nat) (bs : List Byte) (y : Nibble) : (s.storeBytes a bs).getV y = s.getV y := rfl
@[simp] theorem State.storeBytes_isWritten (s : State) (a : Nat) (bs : List Byte) (r : Source) : (s.storeBytes a bs).isWritten r = s.isWritten r := rfl
@[simp] theorem State.storeBytes_readable (s : State) (a : Nat) (bs : List Byte) (rs : List Source) : (s.storeBytes a bs).readable rs = s.readable rs := rfl
@[simp] theorem State.storeBytes_inputs (s : State) (a : Nat) (bs : List Byte) : (s.storeBytes a bs).inputs = s.inputs := rfl

/-! ### State.setDisp -/

@[simp] theorem State.setDisp_cfg (s : State) (d : Display) : (s.setDisp d).cfg = s.cfg := rfl
@[simp] theorem State.setDisp_v (s : State) (d : Display) : (s.setDisp d).v = s.v := rfl
@[simp] theorem State.setDisp_i (s : State) (d : Display) : (s.setDisp d).i = s.i := rfl
@[simp] theorem State.setDisp_pc (s : State) (d : Display) : (s.setDisp d).pc = s.pc := rfl
@[simp] theorem State.setDisp_stack (s : State) (d : Display) : (s.setDisp d).stack = s.stack := rfl
@[simp] theorem State.setDisp_dt (s : State) (d : Display) : (s.setDisp d).dt = s.dt := rfl
@[simp] theorem State.setDisp_st (s : State) (d : Display) : (s.setDisp d).st = s.st := rfl
@[simp] theorem State.setDisp_disp (s : State) (d : Display) : (s.setDisp d).disp = d := rfl
@[simp] theorem State.setDisp_dirty (s : State) (d : Display) : (s.setDisp d).dirty = s.dirty := rfl
@[simp] theorem State.setDisp_tone (s : State) (d : Display) : (s.setDisp d).tone = s.tone := rfl
@[simp] theorem State.setDisp_mem (s : State) (d : Display) : (s.setDisp d).mem = s.mem := rfl
@[simp] theorem State.setDisp_halt (s : State) (d : Display) : (s.setDisp d).halt = s.halt := rfl
@[simp] theorem State.setDisp_clock (s : State) (d : Display) : (s.setDisp d).clock = s.clock := rfl
@[simp] theorem State.setDisp_written (s : State) (d : Display) : (s.setDisp d).written = s.written := rfl
@[simp] theorem State.setDisp_sample (s : State) (d : Display) : (s.setDisp d).sample = s.sample := rfl
@[simp] theorem State.setDisp_pending (s : State) (d : Display) : (s.setDisp d).pending = s.pending := rfl
@[simp] theorem State.setDisp_draws (s : State) (d : Display) : (s.setDisp d).draws = s.draws := rfl
@[simp] theorem State.setDisp_outputs (s : State) (d : Display) : (s.setDisp d).outputs = s.outputs := rfl
@[simp] theorem State.setDisp_getV (s : State) (d : Display) (y : Nibble) : (s.setDisp d).getV y = s.getV y := rfl
@[simp] theorem State.setDisp_isWritten (s : State) (d : Display) (r : Source) : (s.setDisp d).isWritten r = s.isWritten r := rfl
@[simp] theorem State.setDisp_readByte (s : State) (d : Display) (k : Nat) : (s.setDisp d).readByte k = s.readByte k := rfl
@[simp] theorem State.setDisp_readable (s : State) (d : Display) (rs : List Source) : (s.setDisp d).readable rs = s.readable rs := rfl
@[simp] theorem State.setDisp_inputs (s : State) (d : Display) : (s.setDisp d).inputs = s.inputs := rfl

/-! ### State.markDirty -/

@[simp] theorem State.markDirty_cfg (s : State) (p : Bool) : (s.markDirty p).cfg = s.cfg := rfl
@[simp] theorem State.markDirty_v (s : State) (p : Bool) : (s.markDirty p).v = s.v := rfl
@[simp] theorem State.markDirty_i (s : State) (p : Bool) : (s.markDirty p).i = s.i := rfl
@[simp] theorem State.markDirty_pc (s : State) (p : Bool) : (s.markDirty p).pc = s.pc := rfl
@[simp] theorem State.markDirty_stack (s : State) (p : Bool) : (s.markDirty p).stack = s.stack := rfl
@[simp] theorem State.markDirty_dt (s : State) (p : Bool) : (s.markDirty p).dt = s.dt := rfl
@[simp] theorem State.markDirty_st (s : State) (p : Bool) : (s.markDirty p).st = s.st := rfl
@[simp] theorem State.markDirty_disp (s : State) (p : Bool) : (s.markDirty p).disp = s.disp := rfl
@[simp] theorem State.markDirty_dirty (s : State) (p : Bool) : (s.markDirty p).dirty = (s.dirty || p) := rfl
@[simp] theorem State.markDirty_tone (s : State) (p : Bool) : (s.markDirty p).tone = s.tone := rfl
@[simp] theorem State.markDirty_mem (s : State) (p : Bool) : (s.markDirty p).mem = s.mem := rfl
@[simp] theorem State.markDirty_halt (s : State) (p : Bool) : (s.markDirty p).halt = s.halt := rfl
@[simp] theorem State.markDirty_clock (s : State) (p : Bool) : (s.markDirty p).clock = s.clock := rfl
@[simp] theorem State.markDirty_written (s : State) (p : Bool) : (s.markDirty p).written = s.written := rfl
@[simp] theorem State.markDirty_sample (s : State) (p : Bool) : (s.markDirty p).sample = s.sample := rfl
@[simp] theorem State.markDirty_pending (s : State) (p : Bool) : (s.markDirty p).pending = s.pending := rfl
@[simp] theorem State.markDirty_draws (s : State) (p : Bool) : (s.markDirty p).draws = s.draws := rfl
@[simp] theorem State.markDirty_outputs (s : State) (p : Bool) : (s.markDirty p).outputs = s.outputs := rfl
@[simp] theorem State.markDirty_getV (s : State) (p : Bool) (y : Nibble) : (s.markDirty p).getV y = s.getV y := rfl
@[simp] theorem State.markDirty_isWritten (s : State) (p : Bool) (r : Source) : (s.markDirty p).isWritten r = s.isWritten r := rfl
@[simp] theorem State.markDirty_readByte (s : State) (p : Bool) (k : Nat) : (s.markDirty p).readByte k = s.readByte k := rfl
@[simp] theorem State.markDirty_readable (s : State) (p : Bool) (rs : List Source) : (s.markDirty p).readable rs = s.readable rs := rfl
@[simp] theorem State.markDirty_inputs (s : State) (p : Bool) : (s.markDirty p).inputs = s.inputs := rfl

/-! ### State.sampled -/

@[simp] theorem State.sampled_cfg (s : State) (inp : Inputs) : (s.sampled inp).cfg = s.cfg := rfl
@[simp] theorem State.sampled_v (s : State) (inp : Inputs) : (s.sampled inp).v = s.v := rfl
@[simp] theorem State.sampled_i (s : State) (inp : Inputs) : (s.sampled inp).i = s.i := rfl
@[simp] theorem State.sampled_pc (s : State) (inp : Inputs) : (s.sampled inp).pc = s.pc := rfl
@[simp] theorem State.sampled_stack (s : State) (inp : Inputs) : (s.sampled inp).stack = s.stack := rfl
@[simp] theorem State.sampled_dt (s : State) (inp : Inputs) : (s.sampled inp).dt = s.dt := rfl
@[simp] theorem State.sampled_st (s : State) (inp : Inputs) : (s.sampled inp).st = s.st := rfl
@[simp] theorem State.sampled_disp (s : State) (inp : Inputs) : (s.sampled inp).disp = s.disp := rfl
@[simp] theorem State.sampled_dirty (s : State) (inp : Inputs) : (s.sampled inp).dirty = s.dirty := rfl
@[simp] theorem State.sampled_tone (s : State) (inp : Inputs) : (s.sampled inp).tone = s.tone := rfl
@[simp] theorem State.sampled_mem (s : State) (inp : Inputs) : (s.sampled inp).mem = s.mem := rfl
@[simp] theorem State.sampled_halt (s : State) (inp : Inputs) : (s.sampled inp).halt = s.halt := rfl
@[simp] theorem State.sampled_clock (s : State) (inp : Inputs) : (s.sampled inp).clock = s.clock := rfl
@[simp] theorem State.sampled_written (s : State) (inp : Inputs) : (s.sampled inp).written = s.written := rfl
@[simp] theorem State.sampled_sample (s : State) (inp : Inputs) : (s.sampled inp).sample = some inp := rfl
@[simp] theorem State.sampled_pending (s : State) (inp : Inputs) : (s.sampled inp).pending = s.pending := rfl
@[simp] theorem State.sampled_draws (s : State) (inp : Inputs) : (s.sampled inp).draws = s.draws := rfl
@[simp] theorem State.sampled_outputs (s : State) (inp : Inputs) : (s.sampled inp).outputs = s.outputs := rfl
@[simp] theorem State.sampled_getV (s : State) (inp : Inputs) (y : Nibble) : (s.sampled inp).getV y = s.getV y := rfl
@[simp] theorem State.sampled_isWritten (s : State) (inp : Inputs) (r : Source) : (s.sampled inp).isWritten r = s.isWritten r := rfl
@[simp] theorem State.sampled_readByte (s : State) (inp : Inputs) (k : Nat) : (s.sampled inp).readByte k = s.readByte k := rfl
@[simp] theorem State.sampled_readable (s : State) (inp : Inputs) (rs : List Source) : (s.sampled inp).readable rs = s.readable rs := rfl

/-! ### State.drawn -/

@[simp] theorem State.drawn_cfg (s : State) : (s.drawn).cfg = s.cfg := rfl
@[simp] theorem State.drawn_v (s : State) : (s.drawn).v = s.v := rfl
@[simp] theorem State.drawn_i (s : State) : (s.drawn).i = s.i := rfl
@[simp] theorem State.drawn_pc (s : State) : (s.drawn).pc = s.pc := rfl
@[simp] theorem State.drawn_stack (s : State) : (s.drawn).stack = s.stack := rfl
@[simp] theorem State.drawn_dt (s : State) : (s.drawn).dt = s.dt := rfl
@[simp] theorem State.drawn_st (s : State) : (s.drawn).st = s.st := rfl
@[simp] theorem State.drawn_disp (s : State) : (s.drawn).disp = s.disp := rfl
@[simp] theorem State.drawn_dirty (s : State) : (s.drawn).dirty = s.dirty := rfl
@[simp] theorem State.drawn_tone (s : State) : (s.drawn).tone = s.tone := rfl
@[simp] theorem State.drawn_mem (s : State) : (s.drawn).mem = s.mem := rfl
@[simp] theorem State.drawn_halt (s : State) : (s.drawn).halt = s.halt := rfl
@[simp] theorem State.drawn_clock (s : State) : (s.drawn).clock = s.clock := rfl
@[simp] theorem State.drawn_written (s : State) : (s.drawn).written = s.written := rfl
@[simp] theorem State.drawn_sample (s : State) : (s.drawn).sample = none := rfl
@[simp] theorem State.drawn_pending (s : State) : (s.drawn).pending = s.pending := rfl
@[simp] theorem State.drawn_draws (s : State) : (s.drawn).draws = s.draws + 1 := rfl
@[simp] theorem State.drawn_outputs (s : State) : (s.drawn).outputs = s.outputs := rfl
@[simp] theorem State.drawn_getV (s : State) (y : Nibble) : (s.drawn).getV y = s.getV y := rfl
@[simp] theorem State.drawn_isWritten (s : State) (r : Source) : (s.drawn).isWritten r = s.isWritten r := rfl
@[simp] theorem State.drawn_readByte (s : State) (k : Nat) : (s.drawn).readByte k = s.readByte k := rfl
@[simp] theorem State.drawn_readable (s : State) (rs : List Source) : (s.drawn).readable rs = s.readable rs := rfl

/-! ### State.enterFault -/

@[simp] theorem State.enterFault_cfg (s : State) (w : Option Word) (r : Raise) : (s.enterFault w r).cfg = s.cfg := rfl
@[simp] theorem State.enterFault_v (s : State) (w : Option Word) (r : Raise) : (s.enterFault w r).v = s.v := rfl
@[simp] theorem State.enterFault_i (s : State) (w : Option Word) (r : Raise) : (s.enterFault w r).i = s.i := rfl
@[simp] theorem State.enterFault_pc (s : State) (w : Option Word) (r : Raise) : (s.enterFault w r).pc = s.pc := rfl
@[simp] theorem State.enterFault_stack (s : State) (w : Option Word) (r : Raise) : (s.enterFault w r).stack = s.stack := rfl
@[simp] theorem State.enterFault_dt (s : State) (w : Option Word) (r : Raise) : (s.enterFault w r).dt = s.dt := rfl
@[simp] theorem State.enterFault_st (s : State) (w : Option Word) (r : Raise) : (s.enterFault w r).st = s.st := rfl
@[simp] theorem State.enterFault_disp (s : State) (w : Option Word) (r : Raise) : (s.enterFault w r).disp = s.disp := rfl
@[simp] theorem State.enterFault_dirty (s : State) (w : Option Word) (r : Raise) : (s.enterFault w r).dirty = s.dirty := rfl
@[simp] theorem State.enterFault_tone (s : State) (w : Option Word) (r : Raise) : (s.enterFault w r).tone = s.tone := rfl
@[simp] theorem State.enterFault_mem (s : State) (w : Option Word) (r : Raise) : (s.enterFault w r).mem = s.mem := rfl
@[simp] theorem State.enterFault_halt (s : State) (w : Option Word) (r : Raise) : (s.enterFault w r).halt = .faulted (s.faultRecord w r) := rfl
@[simp] theorem State.enterFault_clock (s : State) (w : Option Word) (r : Raise) : (s.enterFault w r).clock = s.clock := rfl
@[simp] theorem State.enterFault_written (s : State) (w : Option Word) (r : Raise) : (s.enterFault w r).written = s.written := rfl
@[simp] theorem State.enterFault_sample (s : State) (w : Option Word) (r : Raise) : (s.enterFault w r).sample = s.sample := rfl
@[simp] theorem State.enterFault_pending (s : State) (w : Option Word) (r : Raise) : (s.enterFault w r).pending = s.pending := rfl
@[simp] theorem State.enterFault_draws (s : State) (w : Option Word) (r : Raise) : (s.enterFault w r).draws = s.draws := rfl
@[simp] theorem State.enterFault_outputs (s : State) (w : Option Word) (r : Raise) : (s.enterFault w r).outputs = s.outputs ++ [.fault (s.faultRecord w r)] := rfl
@[simp] theorem State.enterFault_getV (s : State) (w : Option Word) (r : Raise) (y : Nibble) : (s.enterFault w r).getV y = s.getV y := rfl
@[simp] theorem State.enterFault_isWritten (s : State) (w : Option Word) (e : Raise) (r : Source) : (s.enterFault w e).isWritten r = s.isWritten r := rfl
@[simp] theorem State.enterFault_readByte (s : State) (w : Option Word) (r : Raise) (k : Nat) : (s.enterFault w r).readByte k = s.readByte k := rfl
@[simp] theorem State.enterFault_readable (s : State) (w : Option Word) (r : Raise) (rs : List Source) : (s.enterFault w r).readable rs = s.readable rs := rfl
@[simp] theorem State.enterFault_inputs (s : State) (w : Option Word) (r : Raise) : (s.enterFault w r).inputs = s.inputs := rfl

/-! ### State.tickTimers -/

@[simp] theorem State.tickTimers_cfg (s : State) : (s.tickTimers).cfg = s.cfg := rfl
@[simp] theorem State.tickTimers_v (s : State) : (s.tickTimers).v = s.v := rfl
@[simp] theorem State.tickTimers_i (s : State) : (s.tickTimers).i = s.i := rfl
@[simp] theorem State.tickTimers_pc (s : State) : (s.tickTimers).pc = s.pc := rfl
@[simp] theorem State.tickTimers_stack (s : State) : (s.tickTimers).stack = s.stack := rfl
@[simp] theorem State.tickTimers_dt (s : State) : (s.tickTimers).dt = countDown s.dt := rfl
@[simp] theorem State.tickTimers_st (s : State) : (s.tickTimers).st = countDown s.st := rfl
@[simp] theorem State.tickTimers_disp (s : State) : (s.tickTimers).disp = s.disp := rfl
@[simp] theorem State.tickTimers_dirty (s : State) : (s.tickTimers).dirty = s.dirty := rfl
@[simp] theorem State.tickTimers_tone (s : State) : (s.tickTimers).tone = s.tone := rfl
@[simp] theorem State.tickTimers_mem (s : State) : (s.tickTimers).mem = s.mem := rfl
@[simp] theorem State.tickTimers_halt (s : State) : (s.tickTimers).halt = s.halt := rfl
@[simp] theorem State.tickTimers_clock (s : State) : (s.tickTimers).clock = s.clock := rfl
@[simp] theorem State.tickTimers_written (s : State) : (s.tickTimers).written = s.written := rfl
@[simp] theorem State.tickTimers_sample (s : State) : (s.tickTimers).sample = s.sample := rfl
@[simp] theorem State.tickTimers_pending (s : State) : (s.tickTimers).pending = s.pending := rfl
@[simp] theorem State.tickTimers_draws (s : State) : (s.tickTimers).draws = s.draws := rfl
@[simp] theorem State.tickTimers_outputs (s : State) : (s.tickTimers).outputs = s.outputs := rfl
@[simp] theorem State.tickTimers_getV (s : State) (y : Nibble) : (s.tickTimers).getV y = s.getV y := rfl
@[simp] theorem State.tickTimers_isWritten (s : State) (r : Source) : (s.tickTimers).isWritten r = s.isWritten r := rfl
@[simp] theorem State.tickTimers_readByte (s : State) (k : Nat) : (s.tickTimers).readByte k = s.readByte k := rfl
@[simp] theorem State.tickTimers_readable (s : State) (rs : List Source) : (s.tickTimers).readable rs = s.readable rs := rfl
@[simp] theorem State.tickTimers_inputs (s : State) : (s.tickTimers).inputs = s.inputs := rfl

/-! ### State.pushTone -/

@[simp] theorem State.pushTone_cfg (s : State) : (s.pushTone).cfg = s.cfg := rfl
@[simp] theorem State.pushTone_v (s : State) : (s.pushTone).v = s.v := rfl
@[simp] theorem State.pushTone_i (s : State) : (s.pushTone).i = s.i := rfl
@[simp] theorem State.pushTone_pc (s : State) : (s.pushTone).pc = s.pc := rfl
@[simp] theorem State.pushTone_stack (s : State) : (s.pushTone).stack = s.stack := rfl
@[simp] theorem State.pushTone_dt (s : State) : (s.pushTone).dt = s.dt := rfl
@[simp] theorem State.pushTone_st (s : State) : (s.pushTone).st = s.st := rfl
@[simp] theorem State.pushTone_disp (s : State) : (s.pushTone).disp = s.disp := rfl
@[simp] theorem State.pushTone_dirty (s : State) : (s.pushTone).dirty = s.dirty := rfl
@[simp] theorem State.pushTone_tone (s : State) : (s.pushTone).tone = (s.st != 0#8) := rfl
@[simp] theorem State.pushTone_mem (s : State) : (s.pushTone).mem = s.mem := rfl
@[simp] theorem State.pushTone_halt (s : State) : (s.pushTone).halt = s.halt := rfl
@[simp] theorem State.pushTone_clock (s : State) : (s.pushTone).clock = s.clock := rfl
@[simp] theorem State.pushTone_written (s : State) : (s.pushTone).written = s.written := rfl
@[simp] theorem State.pushTone_sample (s : State) : (s.pushTone).sample = s.sample := rfl
@[simp] theorem State.pushTone_pending (s : State) : (s.pushTone).pending = s.pending := rfl
@[simp] theorem State.pushTone_draws (s : State) : (s.pushTone).draws = s.draws := rfl
@[simp] theorem State.pushTone_outputs (s : State) : (s.pushTone).outputs = s.outputs ++ [.setTone (s.st != 0#8)] := rfl
@[simp] theorem State.pushTone_getV (s : State) (y : Nibble) : (s.pushTone).getV y = s.getV y := rfl
@[simp] theorem State.pushTone_isWritten (s : State) (r : Source) : (s.pushTone).isWritten r = s.isWritten r := rfl
@[simp] theorem State.pushTone_readByte (s : State) (k : Nat) : (s.pushTone).readByte k = s.readByte k := rfl
@[simp] theorem State.pushTone_readable (s : State) (rs : List Source) : (s.pushTone).readable rs = s.readable rs := rfl
@[simp] theorem State.pushTone_inputs (s : State) : (s.pushTone).inputs = s.inputs := rfl

/-! ### State.quitNow -/

@[simp] theorem State.quitNow_cfg (s : State) : (s.quitNow).cfg = s.cfg := rfl
@[simp] theorem State.quitNow_v (s : State) : (s.quitNow).v = s.v := rfl
@[simp] theorem State.quitNow_i (s : State) : (s.quitNow).i = s.i := rfl
@[simp] theorem State.quitNow_pc (s : State) : (s.quitNow).pc = s.pc := rfl
@[simp] theorem State.quitNow_stack (s : State) : (s.quitNow).stack = s.stack := rfl
@[simp] theorem State.quitNow_dt (s : State) : (s.quitNow).dt = s.dt := rfl
@[simp] theorem State.quitNow_st (s : State) : (s.quitNow).st = s.st := rfl
@[simp] theorem State.quitNow_disp (s : State) : (s.quitNow).disp = s.disp := rfl
@[simp] theorem State.quitNow_dirty (s : State) : (s.quitNow).dirty = s.dirty := rfl
@[simp] theorem State.quitNow_tone (s : State) : (s.quitNow).tone = s.tone := rfl
@[simp] theorem State.quitNow_mem (s : State) : (s.quitNow).mem = s.mem := rfl
@[simp] theorem State.quitNow_halt (s : State) : (s.quitNow).halt = .quit := rfl
@[simp] theorem State.quitNow_clock (s : State) : (s.quitNow).clock = s.clock := rfl
@[simp] theorem State.quitNow_written (s : State) : (s.quitNow).written = s.written := rfl
@[simp] theorem State.quitNow_sample (s : State) : (s.quitNow).sample = s.sample := rfl
@[simp] theorem State.quitNow_pending (s : State) : (s.quitNow).pending = s.pending := rfl
@[simp] theorem State.quitNow_draws (s : State) : (s.quitNow).draws = s.draws := rfl
@[simp] theorem State.quitNow_outputs (s : State) : (s.quitNow).outputs = s.outputs := rfl
@[simp] theorem State.quitNow_getV (s : State) (y : Nibble) : (s.quitNow).getV y = s.getV y := rfl
@[simp] theorem State.quitNow_isWritten (s : State) (r : Source) : (s.quitNow).isWritten r = s.isWritten r := rfl
@[simp] theorem State.quitNow_readByte (s : State) (k : Nat) : (s.quitNow).readByte k = s.readByte k := rfl
@[simp] theorem State.quitNow_readable (s : State) (rs : List Source) : (s.quitNow).readable rs = s.readable rs := rfl
@[simp] theorem State.quitNow_inputs (s : State) : (s.quitNow).inputs = s.inputs := rfl

/-! ### State.skipIf -/

@[simp] theorem State.skipIf_cfg (s : State) (p : Bool) : (s.skipIf p).cfg = s.cfg := by cases p <;> rfl
@[simp] theorem State.skipIf_v (s : State) (p : Bool) : (s.skipIf p).v = s.v := by cases p <;> rfl
@[simp] theorem State.skipIf_i (s : State) (p : Bool) : (s.skipIf p).i = s.i := by cases p <;> rfl
@[simp] theorem State.skipIf_stack (s : State) (p : Bool) : (s.skipIf p).stack = s.stack := by cases p <;> rfl
@[simp] theorem State.skipIf_dt (s : State) (p : Bool) : (s.skipIf p).dt = s.dt := by cases p <;> rfl
@[simp] theorem State.skipIf_st (s : State) (p : Bool) : (s.skipIf p).st = s.st := by cases p <;> rfl
@[simp] theorem State.skipIf_disp (s : State) (p : Bool) : (s.skipIf p).disp = s.disp := by cases p <;> rfl
@[simp] theorem State.skipIf_dirty (s : State) (p : Bool) : (s.skipIf p).dirty = s.dirty := by cases p <;> rfl
@[simp] theorem State.skipIf_tone (s : State) (p : Bool) : (s.skipIf p).tone = s.tone := by cases p <;> rfl
@[simp] theorem State.skipIf_mem (s : State) (p : Bool) : (s.skipIf p).mem = s.mem := by cases p <;> rfl
@[simp] theorem State.skipIf_halt (s : State) (p : Bool) : (s.skipIf p).halt = s.halt := by cases p <;> rfl
@[simp] theorem State.skipIf_clock (s : State) (p : Bool) : (s.skipIf p).clock = s.clock := by cases p <;> rfl
@[simp] theorem State.skipIf_written (s : State) (p : Bool) : (s.skipIf p).written = s.written := by cases p <;> rfl
@[simp] theorem State.skipIf_sample (s : State) (p : Bool) : (s.skipIf p).sample = s.sample := by cases p <;> rfl
@[simp] theorem State.skipIf_pending (s : State) (p : Bool) : (s.skipIf p).pending = s.pending := by cases p <;> rfl
@[simp] theorem State.skipIf_draws (s : State) (p : Bool) : (s.skipIf p).draws = s.draws := by cases p <;> rfl
@[simp] theorem State.skipIf_outputs (s : State) (p : Bool) : (s.skipIf p).outputs = s.outputs := by cases p <;> rfl

/-! ### State.popPC -/

@[simp] theorem State.popPC_cfg (s : State) : (s.popPC).cfg = s.cfg := by unfold State.popPC; split <;> rfl
@[simp] theorem State.popPC_v (s : State) : (s.popPC).v = s.v := by unfold State.popPC; split <;> rfl
@[simp] theorem State.popPC_i (s : State) : (s.popPC).i = s.i := by unfold State.popPC; split <;> rfl
@[simp] theorem State.popPC_dt (s : State) : (s.popPC).dt = s.dt := by unfold State.popPC; split <;> rfl
@[simp] theorem State.popPC_st (s : State) : (s.popPC).st = s.st := by unfold State.popPC; split <;> rfl
@[simp] theorem State.popPC_disp (s : State) : (s.popPC).disp = s.disp := by unfold State.popPC; split <;> rfl
@[simp] theorem State.popPC_dirty (s : State) : (s.popPC).dirty = s.dirty := by unfold State.popPC; split <;> rfl
@[simp] theorem State.popPC_tone (s : State) : (s.popPC).tone = s.tone := by unfold State.popPC; split <;> rfl
@[simp] theorem State.popPC_mem (s : State) : (s.popPC).mem = s.mem := by unfold State.popPC; split <;> rfl
@[simp] theorem State.popPC_halt (s : State) : (s.popPC).halt = s.halt := by unfold State.popPC; split <;> rfl
@[simp] theorem State.popPC_clock (s : State) : (s.popPC).clock = s.clock := by unfold State.popPC; split <;> rfl
@[simp] theorem State.popPC_written (s : State) : (s.popPC).written = s.written := by unfold State.popPC; split <;> rfl
@[simp] theorem State.popPC_sample (s : State) : (s.popPC).sample = s.sample := by unfold State.popPC; split <;> rfl
@[simp] theorem State.popPC_pending (s : State) : (s.popPC).pending = s.pending := by unfold State.popPC; split <;> rfl
@[simp] theorem State.popPC_draws (s : State) : (s.popPC).draws = s.draws := by unfold State.popPC; split <;> rfl
@[simp] theorem State.popPC_outputs (s : State) : (s.popPC).outputs = s.outputs := by unfold State.popPC; split <;> rfl

/-! ### State.presentIfDirty -/

@[simp] theorem State.presentIfDirty_cfg (s : State) : (s.presentIfDirty).cfg = s.cfg := by unfold State.presentIfDirty; split <;> rfl
@[simp] theorem State.presentIfDirty_v (s : State) : (s.presentIfDirty).v = s.v := by unfold State.presentIfDirty; split <;> rfl
@[simp] theorem State.presentIfDirty_i (s : State) : (s.presentIfDirty).i = s.i := by unfold State.presentIfDirty; split <;> rfl
@[simp] theorem State.presentIfDirty_pc (s : State) : (s.presentIfDirty).pc = s.pc := by unfold State.presentIfDirty; split <;> rfl
@[simp] theorem State.presentIfDirty_stack (s : State) : (s.presentIfDirty).stack = s.stack := by unfold State.presentIfDirty; split <;> rfl
@[simp] theorem State.presentIfDirty_dt (s : State) : (s.presentIfDirty).dt = s.dt := by unfold State.presentIfDirty; split <;> rfl
@[simp] theorem State.presentIfDirty_st (s : State) : (s.presentIfDirty).st = s.st := by unfold State.presentIfDirty; split <;> rfl
@[simp] theorem State.presentIfDirty_disp (s : State) : (s.presentIfDirty).disp = s.disp := by unfold State.presentIfDirty; split <;> rfl
@[simp] theorem State.presentIfDirty_tone (s : State) : (s.presentIfDirty).tone = s.tone := by unfold State.presentIfDirty; split <;> rfl
@[simp] theorem State.presentIfDirty_mem (s : State) : (s.presentIfDirty).mem = s.mem := by unfold State.presentIfDirty; split <;> rfl
@[simp] theorem State.presentIfDirty_halt (s : State) : (s.presentIfDirty).halt = s.halt := by unfold State.presentIfDirty; split <;> rfl
@[simp] theorem State.presentIfDirty_clock (s : State) : (s.presentIfDirty).clock = s.clock := by unfold State.presentIfDirty; split <;> rfl
@[simp] theorem State.presentIfDirty_written (s : State) : (s.presentIfDirty).written = s.written := by unfold State.presentIfDirty; split <;> rfl
@[simp] theorem State.presentIfDirty_sample (s : State) : (s.presentIfDirty).sample = s.sample := by unfold State.presentIfDirty; split <;> rfl
@[simp] theorem State.presentIfDirty_pending (s : State) : (s.presentIfDirty).pending = s.pending := by unfold State.presentIfDirty; split <;> rfl
@[simp] theorem State.presentIfDirty_draws (s : State) : (s.presentIfDirty).draws = s.draws := by unfold State.presentIfDirty; split <;> rfl

/-! ### State.setFlagged -/

@[simp] theorem State.setFlagged_cfg (s : State) (x : Nibble) (rf : Byte × Byte) : (s.setFlagged x rf).cfg = s.cfg := by unfold State.setFlagged; split <;> rfl
@[simp] theorem State.setFlagged_i (s : State) (x : Nibble) (rf : Byte × Byte) : (s.setFlagged x rf).i = s.i := by unfold State.setFlagged; split <;> rfl
@[simp] theorem State.setFlagged_pc (s : State) (x : Nibble) (rf : Byte × Byte) : (s.setFlagged x rf).pc = s.pc := by unfold State.setFlagged; split <;> rfl
@[simp] theorem State.setFlagged_stack (s : State) (x : Nibble) (rf : Byte × Byte) : (s.setFlagged x rf).stack = s.stack := by unfold State.setFlagged; split <;> rfl
@[simp] theorem State.setFlagged_dt (s : State) (x : Nibble) (rf : Byte × Byte) : (s.setFlagged x rf).dt = s.dt := by unfold State.setFlagged; split <;> rfl
@[simp] theorem State.setFlagged_st (s : State) (x : Nibble) (rf : Byte × Byte) : (s.setFlagged x rf).st = s.st := by unfold State.setFlagged; split <;> rfl
@[simp] theorem State.setFlagged_disp (s : State) (x : Nibble) (rf : Byte × Byte) : (s.setFlagged x rf).disp = s.disp := by unfold State.setFlagged; split <;> rfl
@[simp] theorem State.setFlagged_dirty (s : State) (x : Nibble) (rf : Byte × Byte) : (s.setFlagged x rf).dirty = s.dirty := by unfold State.setFlagged; split <;> rfl
@[simp] theorem State.setFlagged_tone (s : State) (x : Nibble) (rf : Byte × Byte) : (s.setFlagged x rf).tone = s.tone := by unfold State.setFlagged; split <;> rfl
@[simp] theorem State.setFlagged_mem (s : State) (x : Nibble) (rf : Byte × Byte) : (s.setFlagged x rf).mem = s.mem := by unfold State.setFlagged; split <;> rfl
@[simp] theorem State.setFlagged_halt (s : State) (x : Nibble) (rf : Byte × Byte) : (s.setFlagged x rf).halt = s.halt := by unfold State.setFlagged; split <;> rfl
@[simp] theorem State.setFlagged_clock (s : State) (x : Nibble) (rf : Byte × Byte) : (s.setFlagged x rf).clock = s.clock := by unfold State.setFlagged; split <;> rfl
@[simp] theorem State.setFlagged_sample (s : State) (x : Nibble) (rf : Byte × Byte) : (s.setFlagged x rf).sample = s.sample := by unfold State.setFlagged; split <;> rfl
@[simp] theorem State.setFlagged_pending (s : State) (x : Nibble) (rf : Byte × Byte) : (s.setFlagged x rf).pending = s.pending := by unfold State.setFlagged; split <;> rfl
@[simp] theorem State.setFlagged_draws (s : State) (x : Nibble) (rf : Byte × Byte) : (s.setFlagged x rf).draws = s.draws := by unfold State.setFlagged; split <;> rfl
@[simp] theorem State.setFlagged_outputs (s : State) (x : Nibble) (rf : Byte × Byte) : (s.setFlagged x rf).outputs = s.outputs := by unfold State.setFlagged; split <;> rfl

/-! ### State.setVFrom -/

@[simp] theorem State.setVFrom_cfg (s : State) (k : Nat) (bs : List Byte) : (s.setVFrom k bs).cfg = s.cfg := by
  induction bs generalizing s k with
  | nil => rfl
  | cons b bs ih => simp [State.setVFrom, ih]

@[simp] theorem State.setVFrom_i (s : State) (k : Nat) (bs : List Byte) : (s.setVFrom k bs).i = s.i := by
  induction bs generalizing s k with
  | nil => rfl
  | cons b bs ih => simp [State.setVFrom, ih]

@[simp] theorem State.setVFrom_pc (s : State) (k : Nat) (bs : List Byte) : (s.setVFrom k bs).pc = s.pc := by
  induction bs generalizing s k with
  | nil => rfl
  | cons b bs ih => simp [State.setVFrom, ih]

@[simp] theorem State.setVFrom_stack (s : State) (k : Nat) (bs : List Byte) : (s.setVFrom k bs).stack = s.stack := by
  induction bs generalizing s k with
  | nil => rfl
  | cons b bs ih => simp [State.setVFrom, ih]

@[simp] theorem State.setVFrom_dt (s : State) (k : Nat) (bs : List Byte) : (s.setVFrom k bs).dt = s.dt := by
  induction bs generalizing s k with
  | nil => rfl
  | cons b bs ih => simp [State.setVFrom, ih]

@[simp] theorem State.setVFrom_st (s : State) (k : Nat) (bs : List Byte) : (s.setVFrom k bs).st = s.st := by
  induction bs generalizing s k with
  | nil => rfl
  | cons b bs ih => simp [State.setVFrom, ih]

@[simp] theorem State.setVFrom_disp (s : State) (k : Nat) (bs : List Byte) : (s.setVFrom k bs).disp = s.disp := by
  induction bs generalizing s k with
  | nil => rfl
  | cons b bs ih => simp [State.setVFrom, ih]

@[simp] theorem State.setVFrom_dirty (s : State) (k : Nat) (bs : List Byte) : (s.setVFrom k bs).dirty = s.dirty := by
  induction bs generalizing s k with
  | nil => rfl
  | cons b bs ih => simp [State.setVFrom, ih]

@[simp] theorem State.setVFrom_tone (s : State) (k : Nat) (bs : List Byte) : (s.setVFrom k bs).tone = s.tone := by
  induction bs generalizing s k with
  | nil => rfl
  | cons b bs ih => simp [State.setVFrom, ih]

@[simp] theorem State.setVFrom_mem (s : State) (k : Nat) (bs : List Byte) : (s.setVFrom k bs).mem = s.mem := by
  induction bs generalizing s k with
  | nil => rfl
  | cons b bs ih => simp [State.setVFrom, ih]

@[simp] theorem State.setVFrom_halt (s : State) (k : Nat) (bs : List Byte) : (s.setVFrom k bs).halt = s.halt := by
  induction bs generalizing s k with
  | nil => rfl
  | cons b bs ih => simp [State.setVFrom, ih]

@[simp] theorem State.setVFrom_clock (s : State) (k : Nat) (bs : List Byte) : (s.setVFrom k bs).clock = s.clock := by
  induction bs generalizing s k with
  | nil => rfl
  | cons b bs ih => simp [State.setVFrom, ih]

@[simp] theorem State.setVFrom_sample (s : State) (k : Nat) (bs : List Byte) : (s.setVFrom k bs).sample = s.sample := by
  induction bs generalizing s k with
  | nil => rfl
  | cons b bs ih => simp [State.setVFrom, ih]

@[simp] theorem State.setVFrom_pending (s : State) (k : Nat) (bs : List Byte) : (s.setVFrom k bs).pending = s.pending := by
  induction bs generalizing s k with
  | nil => rfl
  | cons b bs ih => simp [State.setVFrom, ih]

@[simp] theorem State.setVFrom_draws (s : State) (k : Nat) (bs : List Byte) : (s.setVFrom k bs).draws = s.draws := by
  induction bs generalizing s k with
  | nil => rfl
  | cons b bs ih => simp [State.setVFrom, ih]

@[simp] theorem State.setVFrom_outputs (s : State) (k : Nat) (bs : List Byte) : (s.setVFrom k bs).outputs = s.outputs := by
  induction bs generalizing s k with
  | nil => rfl
  | cons b bs ih => simp [State.setVFrom, ih]

/-! ### What the conditional updates write -/

@[simp] theorem State.skipIf_true (s : State) : s.skipIf true = s.setPC (s.pc + 2#16) := rfl
@[simp] theorem State.skipIf_false (s : State) : s.skipIf false = s := rfl

theorem State.popPC_empty (s : State) (h : s.stack = []) : s.popPC = s := by
  simp [State.popPC, h]

theorem State.popPC_push (s : State) (l : List Addr) (a : Addr) (h : s.stack = l ++ [a]) :
    s.popPC = { s with pc := a, stack := l } := by
  simp [State.popPC, h]

theorem State.presentIfDirty_of_dirty (s : State) (h : s.dirty = true) :
    s.presentIfDirty = { s with dirty := false, outputs := s.outputs ++ [.present s.disp] } := by
  simp [State.presentIfDirty, h]

theorem State.presentIfDirty_of_clean (s : State) (h : s.dirty = false) : s.presentIfDirty = s := by
  simp [State.presentIfDirty, h]

@[simp] theorem State.presentIfDirty_dirty (s : State) : s.presentIfDirty.dirty = false := by
  unfold State.presentIfDirty
  split <;> simp_all

@[simp] theorem State.takeKey_none (s : State) (x : Nibble) : s.takeKey x none = s.setPC (s.pc - 2#16) := rfl
@[simp] theorem State.takeKey_some (s : State) (x k : Nibble) : s.takeKey x (some k) = s.setV x (k.setWidth 8) := rfl

end Sys2Proof.Machine
end

