-- ==== Sys2Proof/Laws/Display.lean ====
section
/-! SUPPORT. What the blit does to each pixel, to the collision and to the change flag (43_display.md R163 to R165). -/

namespace Sys2Proof.Machine

theorem flipPixel_wf (c : Config) (d : Display) (x y : Nat) (h : dispWf c d) : dispWf c (flipPixel d x y) := by
  refine ⟨by simp [flipPixel, h.1], fun row hrow => ?_⟩
  obtain ⟨j, hj, rfl⟩ := List.getElem_of_mem hrow
  simp only [flipPixel, List.length_modify] at hj
  have := h.2 _ (List.getElem_mem hj)
  simp only [flipPixel, List.getElem_modify]
  split <;> simpa using this

/-- Flipping a pixel of the display inverts it and leaves every other alone. -/
theorem pixel_flipPixel (c : Config) (d : Display) (h : dispWf c d) {x y : Nat} (hx : x < c.dispW) (hy : y < c.dispH)
    (x' y' : Nat) : pixel (flipPixel d x y) x' y' = (pixel d x' y' ^^ (x' == x && y' == y)) := by
  have hlen : y < d.length := h.1 ▸ hy
  have hrow : (d[y]).length = c.dispW := h.2 _ (List.getElem_mem hlen)
  unfold pixel flipPixel
  simp only [List.getElem?_modify]
  by_cases hyy : y = y'
  · subst hyy
    simp only [List.getElem?_eq_getElem hlen, if_true, Option.map_eq_map, Option.map_some, Option.bind_some,
      List.getElem?_modify]
    by_cases hxx : x = x'
    · subst hxx
      simp [List.getElem?_eq_getElem (hrow ▸ hx)]
    · have : (x' == x) = false := by simpa using Ne.symm hxx
      simp [hxx, this]
  · have : (y' == y) = false := by simpa using Ne.symm hyy
    simp [hyy, this]

theorem pixel_blank (c : Config) (x y : Nat) : pixel (blank c) x y = false := by
  unfold pixel blank
  by_cases hy : y < c.dispH <;> by_cases hx : x < c.dispW <;> simp [hy, hx]

theorem blank_wf (c : Config) : dispWf c (blank c) := by
  refine ⟨by simp [blank], fun row h => ?_⟩
  simp [List.eq_of_mem_replicate h]

/-- Flipping a pixel twice restores the buffer. -/
theorem flipPixel_flipPixel (d : Display) (x y : Nat) : flipPixel (flipPixel d x y) x y = d := by
  simp only [flipPixel, List.modify_modify_eq]
  have : (fun row : List Bool => row.modify x not) ∘ (fun row => row.modify x not) = id := by
    funext row
    simp only [Function.comp, List.modify_modify_eq]
    have h2 : not ∘ not = id := by funext b; simp
    simp [h2]
  rw [this]; simp

/-- Whether a sprite row at column `cx`, from bit offset `k` with `left` offsets to go, sets column `x` of the display. -/
def rowSets (w : Nat) (row : Byte) (cx k left x : Nat) : Bool :=
  decide (cx + k ≤ x ∧ x < cx + k + left ∧ x < w) && spriteBit row (x - cx)

theorem blitRow_wf (c : Config) (row : Byte) (cx r left k : Nat) (b : Blit) (h : dispWf c b.disp) :
    dispWf c (blitRow c.dispW row cx r left k b).disp := by
  induction left generalizing k b with
  | zero => exact h
  | succ left ih =>
    unfold blitRow
    split
    · exact h
    · refine ih _ _ ?_
      split
      · exact flipPixel_wf c _ _ _ h
      · exact h

/-- One sprite row inverts exactly the pixels it sets. -/
theorem pixel_blitRow (c : Config) (row : Byte) (cx r left k : Nat) (b : Blit) (h : dispWf c b.disp) (hr : r < c.dispH)
    (x y : Nat) : pixel (blitRow c.dispW row cx r left k b).disp x y =
      (pixel b.disp x y ^^ (y == r && rowSets c.dispW row cx k left x)) := by
  induction left generalizing k b with
  | zero =>
    have : rowSets c.dispW row cx k 0 x = false := by simp [rowSets]; omega
    simp [blitRow, this]
  | succ left ih =>
    unfold blitRow
    split
    · rename_i hw
      have : rowSets c.dispW row cx k (left + 1) x = false := by simp [rowSets]; omega
      simp [this]
    · rename_i hw
      have hsplit : rowSets c.dispW row cx k (left + 1) x =
          ((x == cx + k && spriteBit row k) || rowSets c.dispW row cx (k + 1) left x) := by
        by_cases hxk : x = cx + k
        · subst hxk; simp [rowSets]; omega
        · have : (cx + k ≤ x ∧ x < cx + k + (left + 1) ∧ x < c.dispW) ↔
              (cx + (k + 1) ≤ x ∧ x < cx + (k + 1) + left ∧ x < c.dispW) := by omega
          simp [rowSets, hxk, this]
      have hdisj : (x == cx + k) = true → rowSets c.dispW row cx (k + 1) left x = false := by
        intro he; simp [rowSets]; simp at he; omega
      cases hs : spriteBit row k
      · rw [ih _ _ (by simpa [hs] using h)]
        simp [hsplit, hs]
      · rw [ih _ _ (by simpa [hs, blitPixel] using flipPixel_wf c _ _ _ h)]
        simp only [hs, if_true, blitPixel, hsplit, Bool.and_true]
        rw [pixel_flipPixel c _ h (by omega) hr]
        cases hx : (x == cx + k) <;> cases hy : (y == r) <;> simp_all

/-- A sprite row collides exactly where it sets a pixel that was set. -/
theorem collide_blitRow (c : Config) (row : Byte) (cx r left k : Nat) (b : Blit) (h : dispWf c b.disp) (hr : r < c.dispH) :
    (blitRow c.dispW row cx r left k b).collide = true ↔
      b.collide = true ∨ ∃ x, rowSets c.dispW row cx k left x = true ∧ pixel b.disp x r = true := by
  induction left generalizing k b with
  | zero => simp [blitRow, rowSets]; omega
  | succ left ih =>
    unfold blitRow
    split
    · rename_i hw
      simp only [rowSets, Bool.and_eq_true, decide_eq_true_eq]
      constructor
      · exact .inl
      · rintro (h' | ⟨x, ⟨⟨h1, h2, h3⟩, -⟩, -⟩)
        · exact h'
        · omega
    · rename_i hw
      have hother : ∀ x, rowSets c.dispW row cx (k + 1) left x = true → x ≠ cx + k := by
        intro x hx; simp [rowSets] at hx; omega
      have hsplit : ∀ x, rowSets c.dispW row cx k (left + 1) x = true ↔
          (x = cx + k ∧ spriteBit row k = true) ∨ rowSets c.dispW row cx (k + 1) left x = true := by
        intro x
        by_cases hxk : x = cx + k
        · subst hxk
          have : cx + k - cx = k := by omega
          simp [rowSets, this]; omega
        · have : (cx + k ≤ x ∧ x < cx + k + (left + 1) ∧ x < c.dispW) ↔
              (cx + (k + 1) ≤ x ∧ x < cx + (k + 1) + left ∧ x < c.dispW) := by omega
          simp [rowSets, hxk, this]
      cases hs : spriteBit row k
      · rw [ih _ _ (by simpa [hs] using h)]
        simp [hsplit, hs]
      · rw [ih _ _ (by simpa [hs, blitPixel] using flipPixel_wf c _ _ _ h)]
        simp only [if_true, blitPixel, Bool.or_eq_true, hsplit, hs, and_true]
        constructor
        · rintro ((hb | hp) | ⟨x, hx, hp⟩)
          · exact .inl hb
          · exact .inr ⟨cx + k, .inl rfl, hp⟩
          · rw [pixel_flipPixel c _ h (by omega) hr] at hp
            refine .inr ⟨x, .inr hx, ?_⟩
            have : (x == cx + k) = false := by simpa using hother x hx
            simpa [this] using hp
        · rintro (hb | ⟨x, rfl | hx, hp⟩)
          · exact .inl (.inl hb)
          · exact .inl (.inr hp)
          · refine .inr ⟨x, hx, ?_⟩
            rw [pixel_flipPixel c _ h (by omega) hr]
            have : (x == cx + k) = false := by simpa using hother x hx
            simpa [this] using hp

/-- A sprite row changes the buffer exactly where it sets some pixel. -/
theorem changed_blitRow (w : Nat) (row : Byte) (cx r left k : Nat) (b : Blit) :
    (blitRow w row cx r left k b).changed = true ↔ b.changed = true ∨ ∃ x, rowSets w row cx k left x = true := by
  induction left generalizing k b with
  | zero => simp [blitRow, rowSets]; omega
  | succ left ih =>
    unfold blitRow
    split
    · simp only [rowSets, Bool.and_eq_true, decide_eq_true_eq]
      constructor
      · exact .inl
      · rintro (h' | ⟨x, ⟨h1, h2, h3⟩, -⟩)
        · exact h'
        · omega
    · rename_i hw
      have hsplit : ∀ x, rowSets w row cx k (left + 1) x = true ↔
          (x = cx + k ∧ spriteBit row k = true) ∨ rowSets w row cx (k + 1) left x = true := by
        intro x
        by_cases hxk : x = cx + k
        · subst hxk
          have : cx + k - cx = k := by omega
          simp [rowSets, this]; omega
        · have : (cx + k ≤ x ∧ x < cx + k + (left + 1) ∧ x < w) ↔
              (cx + (k + 1) ≤ x ∧ x < cx + (k + 1) + left ∧ x < w) := by omega
          simp [rowSets, hxk, this]
      rw [ih]
      cases hs : spriteBit row k
      · simp [hsplit, hs]
      · simp only [if_true, blitPixel, hsplit, hs, and_true, true_or, true_iff]
        exact .inr ⟨cx + k, .inl rfl⟩

/-- Whether a sprite whose first byte lands on display row `r` sets the pixel at column `x`, row `y`. -/
def spriteSets (c : Config) (cx r : Nat) (sprite : List Byte) (x y : Nat) : Bool :=
  decide (r ≤ y ∧ y < c.dispH) && match sprite[y - r]? with
    | some row => rowSets c.dispW row cx 0 8 x
    | none => false

theorem spriteSets_cons (c : Config) (cx r : Nat) (row : Byte) (rows : List Byte) (x y : Nat) (hr : r < c.dispH) :
    spriteSets c cx r (row :: rows) x y =
      ((y == r && rowSets c.dispW row cx 0 8 x) || spriteSets c cx (r + 1) rows x y) := by
  unfold spriteSets
  rcases Nat.lt_trichotomy y r with h | h | h
  · have h3 : (y == r) = false := by simp; omega
    rw [decide_eq_false (by omega : ¬(r ≤ y ∧ y < c.dispH)), decide_eq_false (by omega : ¬(r + 1 ≤ y ∧ y < c.dispH)), h3]
    rfl
  · subst h
    simp [hr]
  · have h3 : (y == r) = false := by simp; omega
    have h4 : y - r = y - (r + 1) + 1 := by omega
    have h5 : (r ≤ y ∧ y < c.dispH) ↔ (r + 1 ≤ y ∧ y < c.dispH) := by omega
    simp [h3, h4, h5]

theorem spriteSets_below (c : Config) (cx r : Nat) (sprite : List Byte) (x y : Nat) (hr : c.dispH ≤ r) :
    spriteSets c cx r sprite x y = false := by
  have h1 : ¬(r ≤ y ∧ y < c.dispH) := by omega
  simp [spriteSets, h1]

theorem blitRows_wf (c : Config) (cx r : Nat) (sprite : List Byte) (b : Blit) (h : dispWf c b.disp) :
    dispWf c (blitRows c cx r sprite b).disp := by
  induction sprite generalizing r b with
  | nil => exact h
  | cons row rows ih =>
    unfold blitRows
    split
    · exact h
    · exact ih _ _ (blitRow_wf c row cx r 8 0 b h)

/-- The blit inverts exactly the pixels the sprite sets. -/
theorem pixel_blitRows (c : Config) (cx r : Nat) (sprite : List Byte) (b : Blit) (h : dispWf c b.disp) (x y : Nat) :
    pixel (blitRows c cx r sprite b).disp x y = (pixel b.disp x y ^^ spriteSets c cx r sprite x y) := by
  induction sprite generalizing r b with
  | nil => simp [blitRows, spriteSets]
  | cons row rows ih =>
    unfold blitRows
    split
    · simp [spriteSets_below c cx r (row :: rows) x y ‹_›]
    · rename_i hr
      have hr' : r < c.dispH := by omega
      rw [ih _ _ (blitRow_wf c row cx r 8 0 b h), pixel_blitRow c row cx r 8 0 b h hr', spriteSets_cons c cx r row rows x y hr']
      have hdisj : (y == r) = true → spriteSets c cx (r + 1) rows x y = false := by
        intro he; simp at he; subst he
        simp [spriteSets]
      cases hy : (y == r)
      · simp
      · simp [hdisj hy]

theorem collide_blitRows (c : Config) (cx r : Nat) (sprite : List Byte) (b : Blit) (h : dispWf c b.disp) :
    (blitRows c cx r sprite b).collide = true ↔
      b.collide = true ∨ ∃ x y, spriteSets c cx r sprite x y = true ∧ pixel b.disp x y = true := by
  induction sprite generalizing r b with
  | nil => simp [blitRows, spriteSets]
  | cons row rows ih =>
    unfold blitRows
    split
    · simp [spriteSets_below c cx r (row :: rows) _ _ ‹_›]
    · rename_i hr
      have hr' : r < c.dispH := by omega
      rw [ih _ _ (blitRow_wf c row cx r 8 0 b h), collide_blitRow c row cx r 8 0 b h hr']
      have hlater : ∀ x y, spriteSets c cx (r + 1) rows x y = true → (y == r) = false := by
        intro x y hs; simp [spriteSets] at hs; simp; omega
      constructor
      · rintro ((hb | ⟨x, hx, hp⟩) | ⟨x, y, hs, hp⟩)
        · exact .inl hb
        · refine .inr ⟨x, r, ?_, hp⟩
          simp [spriteSets_cons c cx r row rows x r hr', hx]
        · refine .inr ⟨x, y, by simp [spriteSets_cons c cx r row rows x y hr', hs], ?_⟩
          rw [pixel_blitRow c row cx r 8 0 b h hr'] at hp
          simpa [hlater x y hs] using hp
      · rintro (hb | ⟨x, y, hs, hp⟩)
        · exact .inl (.inl hb)
        · rw [spriteSets_cons c cx r row rows x y hr'] at hs
          simp only [Bool.or_eq_true, Bool.and_eq_true, beq_iff_eq] at hs
          rcases hs with ⟨rfl, hs⟩ | hs
          · exact .inl (.inr ⟨x, hs, hp⟩)
          · refine .inr ⟨x, y, hs, ?_⟩
            rw [pixel_blitRow c row cx r 8 0 b h hr']
            simpa [hlater x y hs] using hp

theorem changed_blitRows (c : Config) (cx r : Nat) (sprite : List Byte) (b : Blit) :
    (blitRows c cx r sprite b).changed = true ↔
      b.changed = true ∨ ∃ x y, spriteSets c cx r sprite x y = true := by
  induction sprite generalizing r b with
  | nil => simp [blitRows, spriteSets]
  | cons row rows ih =>
    unfold blitRows
    split
    · simp [spriteSets_below c cx r (row :: rows) _ _ ‹_›]
    · rename_i hr
      have hr' : r < c.dispH := by omega
      rw [ih, changed_blitRow]
      constructor
      · rintro ((hb | ⟨x, hx⟩) | ⟨x, y, hs⟩)
        · exact .inl hb
        · exact .inr ⟨x, r, by simp [spriteSets_cons c cx r row rows x r hr', hx]⟩
        · exact .inr ⟨x, y, by simp [spriteSets_cons c cx r row rows x y hr', hs]⟩
      · rintro (hb | ⟨x, y, hs⟩)
        · exact .inl (.inl hb)
        · rw [spriteSets_cons c cx r row rows x y hr'] at hs
          simp only [Bool.or_eq_true, Bool.and_eq_true] at hs
          rcases hs with ⟨-, hs⟩ | hs
          · exact .inl (.inr ⟨x, hs⟩)
          · exact .inr ⟨x, y, hs⟩

/-- Two buffers of the display's size with the same pixels are the same. -/
theorem display_ext (c : Config) (d e : Display) (hd : dispWf c d) (he : dispWf c e)
    (h : ∀ x y, x < c.dispW → y < c.dispH → pixel d x y = pixel e x y) : d = e := by
  refine List.ext_getElem (hd.1.trans he.1.symm) fun y h1 h2 => ?_
  have hr1 := hd.2 _ (List.getElem_mem h1)
  have hr2 := he.2 _ (List.getElem_mem h2)
  refine List.ext_getElem (hr1.trans hr2.symm) fun x h3 h4 => ?_
  have := h x y (hr1 ▸ h3) (hd.1 ▸ h1)
  simpa [pixel, List.getElem?_eq_getElem h1, List.getElem?_eq_getElem h2, List.getElem?_eq_getElem h3,
    List.getElem?_eq_getElem h4] using this

end Sys2Proof.Machine
end

