-- ==== Sys2Proof/Laws/Encoding.lean ====
section
/-! SUPPORT. The fields of the words the encoder builds (30_encoding.md R71), and that a word is its fields: words and
fields as numbers, then linear arithmetic. -/

namespace Sys2Proof

theorem toNat_append_eq {n m : Nat} (a : BitVec n) (b : BitVec m) : (a ++ b).toNat = a.toNat * 2 ^ m + b.toNat := by
  rw [BitVec.toNat_append, ← Nat.shiftLeft_add_eq_or_of_lt b.isLt, Nat.shiftLeft_eq]

theorem toNat_wordNNN (a : Nibble) (nnn : Imm12) : (wordNNN a nnn).toNat = a.toNat * 4096 + nnn.toNat :=
  toNat_append_eq a nnn

theorem toNat_wordXNN (a x : Nibble) (nn : Byte) :
    (wordXNN a x nn).toNat = a.toNat * 4096 + x.toNat * 256 + nn.toNat := by
  have h1 := toNat_append_eq (a ++ x) nn
  have h2 := toNat_append_eq a x
  have h3 : (wordXNN a x nn).toNat = (a ++ x ++ nn).toNat := rfl
  omega

theorem toNat_wordXYN (a x y n : Nibble) :
    (wordXYN a x y n).toNat = a.toNat * 4096 + x.toNat * 256 + y.toNat * 16 + n.toNat := by
  have h1 := toNat_append_eq (a ++ x ++ y) n
  have h2 := toNat_append_eq (a ++ x) y
  have h3 := toNat_append_eq a x
  have h4 : (wordXYN a x y n).toNat = (a ++ x ++ y ++ n).toNat := rfl
  omega

theorem toNat_wordOfBytes (b0 b1 : Byte) : (wordOfBytes b0 b1).toNat = b0.toNat * 256 + b1.toNat :=
  toNat_append_eq b0 b1

theorem toNat_fieldA (w : Word) : (fieldA w).toNat = w.toNat / 4096 := by
  have := w.isLt
  simp only [fieldA, BitVec.extractLsb'_toNat, Nat.shiftRight_eq_div_pow]; omega

theorem toNat_fieldX (w : Word) : (fieldX w).toNat = w.toNat / 256 % 16 := by
  simp only [fieldX, BitVec.extractLsb'_toNat, Nat.shiftRight_eq_div_pow]

theorem toNat_fieldY (w : Word) : (fieldY w).toNat = w.toNat / 16 % 16 := by
  simp only [fieldY, BitVec.extractLsb'_toNat, Nat.shiftRight_eq_div_pow]

theorem toNat_fieldN (w : Word) : (fieldN w).toNat = w.toNat % 16 := by
  simp only [fieldN, BitVec.extractLsb'_toNat, Nat.shiftRight_zero]

theorem toNat_fieldNN (w : Word) : (fieldNN w).toNat = w.toNat % 256 := by
  simp only [fieldNN, BitVec.extractLsb'_toNat, Nat.shiftRight_zero]

theorem toNat_fieldNNN (w : Word) : (fieldNNN w).toNat = w.toNat % 4096 := by
  simp only [fieldNNN, BitVec.extractLsb'_toNat, Nat.shiftRight_eq_div_pow]; omega

@[simp] theorem fieldA_wordNNN (a : Nibble) (nnn : Imm12) : fieldA (wordNNN a nnn) = a :=
  BitVec.eq_of_toNat_eq (by rw [toNat_fieldA, toNat_wordNNN]; omega)

@[simp] theorem fieldNNN_wordNNN (a : Nibble) (nnn : Imm12) : fieldNNN (wordNNN a nnn) = nnn :=
  BitVec.eq_of_toNat_eq (by rw [toNat_fieldNNN, toNat_wordNNN]; omega)

@[simp] theorem fieldA_wordXNN (a x : Nibble) (nn : Byte) : fieldA (wordXNN a x nn) = a :=
  BitVec.eq_of_toNat_eq (by rw [toNat_fieldA, toNat_wordXNN]; omega)

@[simp] theorem fieldX_wordXNN (a x : Nibble) (nn : Byte) : fieldX (wordXNN a x nn) = x :=
  BitVec.eq_of_toNat_eq (by rw [toNat_fieldX, toNat_wordXNN]; omega)

@[simp] theorem fieldNN_wordXNN (a x : Nibble) (nn : Byte) : fieldNN (wordXNN a x nn) = nn :=
  BitVec.eq_of_toNat_eq (by rw [toNat_fieldNN, toNat_wordXNN]; omega)

@[simp] theorem fieldA_wordXYN (a x y n : Nibble) : fieldA (wordXYN a x y n) = a :=
  BitVec.eq_of_toNat_eq (by rw [toNat_fieldA, toNat_wordXYN]; omega)

@[simp] theorem fieldX_wordXYN (a x y n : Nibble) : fieldX (wordXYN a x y n) = x :=
  BitVec.eq_of_toNat_eq (by rw [toNat_fieldX, toNat_wordXYN]; omega)

@[simp] theorem fieldY_wordXYN (a x y n : Nibble) : fieldY (wordXYN a x y n) = y :=
  BitVec.eq_of_toNat_eq (by rw [toNat_fieldY, toNat_wordXYN]; omega)

@[simp] theorem fieldN_wordXYN (a x y n : Nibble) : fieldN (wordXYN a x y n) = n :=
  BitVec.eq_of_toNat_eq (by rw [toNat_fieldN, toNat_wordXYN]; omega)

/-- A word is its group and its immediate address. -/
theorem wordNNN_fields (w : Word) : wordNNN (fieldA w) (fieldNNN w) = w :=
  BitVec.eq_of_toNat_eq (by rw [toNat_wordNNN, toNat_fieldA, toNat_fieldNNN]; omega)

/-- A word is its group, its register field and its immediate byte. -/
theorem wordXNN_fields (w : Word) : wordXNN (fieldA w) (fieldX w) (fieldNN w) = w :=
  BitVec.eq_of_toNat_eq (by rw [toNat_wordXNN, toNat_fieldA, toNat_fieldX, toNat_fieldNN]; omega)

/-- A word is its four nibbles. -/
theorem wordXYN_fields (w : Word) : wordXYN (fieldA w) (fieldX w) (fieldY w) (fieldN w) = w :=
  BitVec.eq_of_toNat_eq (by rw [toNat_wordXYN, toNat_fieldA, toNat_fieldX, toNat_fieldY, toNat_fieldN]; omega)

/-- The bytes of a word assemble to it again (R57). -/
theorem wordOfBytes_bytesOfWord (w : Word) : wordOfBytes (w.extractLsb' 8 8) (w.extractLsb' 0 8) = w :=
  BitVec.eq_of_toNat_eq (by
    rw [toNat_wordOfBytes, BitVec.extractLsb'_toNat, BitVec.extractLsb'_toNat, Nat.shiftRight_eq_div_pow,
      Nat.shiftRight_eq_div_pow]
    have := w.isLt
    omega)

/-- Decoding reads the word of the first two bytes and gives back the rest (R54, R70). -/
theorem decode_cons (b0 b1 : Byte) (rest : List Byte) :
    decode (b0 :: b1 :: rest) = (decodeWord (wordOfBytes b0 b1)).map (fun i => (i, rest)) := by
  simp only [decode]
  cases decodeWord (wordOfBytes b0 b1) <;> rfl

theorem decode_bytesOfWord (w : Word) (rest : List Byte) :
    decode (bytesOfWord w ++ rest) = (decodeWord w).map (fun i => (i, rest)) := by
  rw [bytesOfWord]
  exact (decode_cons _ _ _).trans (by rw [wordOfBytes_bytesOfWord]; rfl)

theorem decodeWord_eq_ok_iff (w : Word) (i : Instr) : decodeWord w = .ok i ↔ decodeWord? w = some i := by
  unfold decodeWord; cases decodeWord? w <;> simp

theorem decodeWord_eq_error_iff (w : Word) (e : DecodeError) :
    decodeWord w = .error e ↔ decodeWord? w = none ∧ e = .unknownOpcode w := by
  unfold decodeWord
  cases decodeWord? w <;> simp
  exact eq_comm

end Sys2Proof
end

