-- ==== Sys2Proof/Laws/Memory.lean ====
section
/-! SUPPORT. The laws of memory: read after write, and that every operation keeps the canonical form. -/

namespace Sys2Proof.Machine

theorem Memory.lookup_put_same (c : Config) (a : Nat) (v : Byte) (m : Memory)
    (h : m.Pairwise (fun p q => p.1 < q.1)) :
    (Memory.lookup (Memory.put (Memory.unlisted c a) a v m) a).getD (Memory.unlisted c a) = v := by
  induction m with
  | nil => unfold Memory.put; split <;> simp_all [Memory.lookup]
  | cons p m ih =>
    obtain ⟨b, w⟩ := p
    have hm : ∀ q ∈ m, b < q.1 := fun q hq => (List.pairwise_cons.1 h).1 q hq
    have hnone : ∀ k, k < b → ∀ l : Memory, (∀ q ∈ l, b < q.1) → Memory.lookup l k = none := by
      intro k hk l hl
      induction l with
      | nil => rfl
      | cons q l ihl =>
        have := hl q (by simp)
        rw [Memory.lookup, if_neg (by omega)]
        exact ihl fun q' hq' => hl q' (by simp [hq'])
    have hnone' : ∀ l : Memory, (∀ q ∈ l, b < q.1) → Memory.lookup l b = none := by
      intro l hl
      induction l with
      | nil => rfl
      | cons q l ihl =>
        have := hl q (by simp)
        rw [Memory.lookup, if_neg (by omega)]
        exact ihl fun q' hq' => hl q' (by simp [hq'])
    unfold Memory.put
    split
    · split
      · rw [Memory.lookup, if_neg (by omega), hnone a ‹_› m hm]; simp_all
      · simp [Memory.lookup]
    · split
      · subst_vars
        split
        · rw [hnone' m hm]; simp_all
        · simp [Memory.lookup]
      · rw [Memory.lookup, if_neg ‹_›]
        exact ih (List.pairwise_cons.1 h).2

theorem Memory.lookup_put_other (u : Byte) (a : Nat) (v : Byte) (m : Memory) {k : Nat} (hk : k ≠ a) :
    Memory.lookup (Memory.put u a v m) k = Memory.lookup m k := by
  induction m with
  | nil => unfold Memory.put; split <;> simp [Memory.lookup, hk]
  | cons p m ih =>
    obtain ⟨b, w⟩ := p
    unfold Memory.put
    split
    · split
      · rfl
      · simp [Memory.lookup, hk]
    · split
      · subst_vars
        split <;> simp [Memory.lookup, hk]
      · simp [Memory.lookup, ih]

/-- A read after a write to the same address inside memory gives the value written (R53, R61). -/
theorem Memory.get_set_same (c : Config) (m : Memory) (a : Nat) (v : Byte) (h : Memory.wf c m) (ha : a < c.memSize) :
    Memory.get c (Memory.set c m a v) a = v := by
  rw [Memory.set, if_pos ha]
  exact Memory.lookup_put_same c a v m h.1

/-- A write leaves every other address alone. -/
theorem Memory.get_set_other (c : Config) (m : Memory) (a : Nat) (v : Byte) {k : Nat} (hk : k ≠ a) :
    Memory.get c (Memory.set c m a v) k = Memory.get c m k := by
  unfold Memory.set
  split
  · rw [Memory.get, Memory.get, Memory.lookup_put_other _ _ _ _ hk]
  · rfl

/-- Every entry after `put` is the new one or an old one at another address. -/
theorem Memory.mem_put {u : Byte} {a : Nat} {v : Byte} {m : Memory} {p : Host.Cell} (h : p ∈ Memory.put u a v m) :
    (p = (a, v) ∧ v ≠ u) ∨ p ∈ m := by
  induction m with
  | nil => unfold Memory.put at h; split at h <;> simp_all
  | cons q m ih =>
    obtain ⟨b, w⟩ := q
    unfold Memory.put at h
    split at h
    · split at h
      · exact .inr h
      · rcases List.mem_cons.1 h with rfl | h
        · exact .inl ⟨rfl, ‹_›⟩
        · exact .inr h
    · split at h
      · split at h
        · exact .inr (List.mem_cons_of_mem _ h)
        · rcases List.mem_cons.1 h with rfl | h
          · exact .inl ⟨rfl, ‹_›⟩
          · exact .inr (List.mem_cons_of_mem _ h)
      · rcases List.mem_cons.1 h with rfl | h
        · exact .inr (by simp)
        · exact (ih h).imp id (List.mem_cons_of_mem _)

theorem Memory.put_sorted (u : Byte) (a : Nat) (v : Byte) (m : Memory) (h : m.Pairwise (fun p q => p.1 < q.1)) :
    (Memory.put u a v m).Pairwise (fun p q => p.1 < q.1) := by
  induction m with
  | nil => unfold Memory.put; split <;> simp
  | cons q m ih =>
    obtain ⟨b, w⟩ := q
    obtain ⟨hb, hm⟩ := List.pairwise_cons.1 h
    unfold Memory.put
    split
    · rename_i hab
      split
      · exact h
      · refine List.pairwise_cons.2 ⟨fun p hp => ?_, h⟩
        rcases List.mem_cons.1 hp with rfl | hp
        · exact hab
        · exact Nat.lt_trans hab (hb p hp)
    · split
      · subst_vars
        split
        · exact hm
        · exact List.pairwise_cons.2 ⟨hb, hm⟩
      · refine List.pairwise_cons.2 ⟨fun p hp => ?_, ih hm⟩
        rcases Memory.mem_put hp with ⟨rfl, -⟩ | hp
        · show b < a; omega
        · exact hb p hp

/-- A write keeps the canonical form. -/
theorem Memory.set_wf (c : Config) (m : Memory) (a : Nat) (v : Byte) (h : Memory.wf c m) :
    Memory.wf c (Memory.set c m a v) := by
  unfold Memory.set
  split
  · refine ⟨Memory.put_sorted _ _ _ _ h.1, fun p hp => ?_⟩
    rcases Memory.mem_put hp with ⟨rfl, hv⟩ | hp
    · exact ⟨‹_›, hv⟩
    · exact h.2 p hp
  · exact h

/-- A store of several bytes keeps the canonical form. -/
theorem Memory.setMany_wf (c : Config) (m : Memory) (a : Nat) (vs : List Byte) (h : Memory.wf c m) :
    Memory.wf c (Memory.setMany c m a vs) := by
  induction vs generalizing m a with
  | nil => exact h
  | cons v vs ih => exact ih _ _ (Memory.set_wf c m a v h)

/-- What any address reads as after a store of several bytes. -/
theorem Memory.get_setMany (c : Config) (m : Memory) (a : Nat) (vs : List Byte) (h : Memory.wf c m)
    (ha : a + vs.length ≤ c.memSize) (k : Nat) :
    Memory.get c (Memory.setMany c m a vs) k =
      if a ≤ k then (vs[k - a]?).getD (Memory.get c m k) else Memory.get c m k := by
  induction vs generalizing m a with
  | nil => simp [Memory.setMany]
  | cons v vs ih =>
    simp only [List.length_cons] at ha
    rw [Memory.setMany, ih _ _ (Memory.set_wf c m a v h) (by omega)]
    rcases Nat.lt_trichotomy k a with hlt | rfl | hgt
    · rw [if_neg (by omega), if_neg (by omega), Memory.get_set_other _ _ _ _ (by omega)]
    · rw [if_neg (by omega), if_pos (Nat.le_refl _), Memory.get_set_same c m k v h (by omega)]
      simp
    · have hs : k - a = k - (a + 1) + 1 := by omega
      rw [if_pos (by omega), if_pos (by omega), Memory.get_set_other _ _ _ _ (by omega), hs]
      simp

/-- An address outside the stored bytes reads as before, whatever the store. -/
theorem Memory.get_setMany_outside (c : Config) (m : Memory) (a : Nat) (vs : List Byte) {k : Nat}
    (h : k < a ∨ a + vs.length ≤ k) : Memory.get c (Memory.setMany c m a vs) k = Memory.get c m k := by
  induction vs generalizing m a with
  | nil => rfl
  | cons v vs ih =>
    simp only [List.length_cons] at h
    rw [Memory.setMany, ih _ _ (by omega), Memory.get_set_other _ _ _ _ (by omega)]

theorem Memory.wf_nil (c : Config) : Memory.wf c [] := ⟨List.Pairwise.nil, by simp⟩

theorem State.readByte_storeBytes (s : State) (a : Nat) (vs : List Byte) (h : Memory.wf s.cfg s.mem)
    (ha : a + vs.length ≤ s.cfg.memSize) (k : Nat) :
    (s.storeBytes a vs).readByte k = if a ≤ k then (vs[k - a]?).getD (s.readByte k) else s.readByte k :=
  Memory.get_setMany _ _ _ _ h ha k

theorem State.readByte_storeBytes_outside (s : State) (a : Nat) (vs : List Byte) {k : Nat}
    (h : k < a ∨ a + vs.length ≤ k) : (s.storeBytes a vs).readByte k = s.readByte k :=
  Memory.get_setMany_outside _ _ _ _ h

end Sys2Proof.Machine
end

