-- ==== Sys2Proof/Laws/Register.lean ====
section
/-! SUPPORT. Read after write for the register file and the written marks. -/

namespace Sys2Proof.Machine

theorem nibble_toNat_ne {x y : Nibble} (h : x ≠ y) : x.toNat ≠ y.toNat :=
  fun h' => h (BitVec.eq_of_toNat_eq h')

@[simp] theorem State.getV_setV_same (s : State) (x : Nibble) (b : Byte) : (s.setV x b).getV x = b := by
  simp [State.getV, State.setV]

theorem State.getV_setV_other (s : State) {x y : Nibble} (b : Byte) (h : y ≠ x) :
    (s.setV x b).getV y = s.getV y := by
  simp [State.getV, State.setV, Vector.getElem_set_ne, (nibble_toNat_ne h).symm]

theorem State.getV_setV (s : State) (x y : Nibble) (b : Byte) :
    (s.setV x b).getV y = if y = x then b else s.getV y := by
  split
  · subst_vars; simp
  · exact s.getV_setV_other b ‹_›

@[simp] theorem State.isWritten_setV_same (s : State) (x : Nibble) (b : Byte) :
    (s.setV x b).isWritten (.v x) = true := by
  simp [State.isWritten, State.setV]

theorem State.isWritten_setV_other (s : State) (x : Nibble) (b : Byte) (r : Source) (h : r ≠ .v x) :
    (s.setV x b).isWritten r = s.isWritten r := by
  cases r with
  | v y =>
    have hxy : y ≠ x := fun e => h (by rw [e])
    simp [State.isWritten, State.setV, Vector.getElem_set_ne, (nibble_toNat_ne hxy).symm]
  | i => rfl
  | dt => rfl
  | st => rfl

theorem State.isWritten_setI (s : State) (a : Addr) (r : Source) :
    (s.setI a).isWritten r = (if r = .i then true else s.isWritten r) := by
  cases r <;> simp [State.isWritten, State.setI]

theorem State.isWritten_setDT (s : State) (b : Byte) (r : Source) :
    (s.setDT b).isWritten r = (if r = .dt then true else s.isWritten r) := by
  cases r <;> simp [State.isWritten, State.setDT]

theorem State.isWritten_setST (s : State) (b : Byte) (r : Source) :
    (s.setST b).isWritten r = (if r = .st then true else s.isWritten r) := by
  cases r <;> simp [State.isWritten, State.setST]

/-- The register number `k < 16` as a field and back. -/
theorem ofNat_toNat_nibble {k : Nat} (h : k < 16) : (BitVec.ofNat 4 k).toNat = k := by
  simp; omega

/-- A load of consecutive registers writes the ones in its range, in order, and no other (R147). -/
theorem State.getV_setVFrom (s : State) (k : Nat) (bs : List Byte) (h : k + bs.length ≤ 16) (x : Nibble) :
    (s.setVFrom k bs).getV x = if k ≤ x.toNat then (bs[x.toNat - k]?).getD (s.getV x) else s.getV x := by
  induction bs generalizing s k with
  | nil => simp [State.setVFrom]
  | cons b bs ih =>
    simp only [List.length_cons] at h
    have hk : (BitVec.ofNat 4 k).toNat = k := ofNat_toNat_nibble (by omega)
    rw [State.setVFrom, ih _ _ (by omega), State.getV_setV]
    rcases Nat.lt_trichotomy x.toNat k with hlt | heq | hgt
    · have hx : x ≠ BitVec.ofNat 4 k := fun e => by rw [e, hk] at hlt; omega
      rw [if_neg (by omega), if_neg hx, if_neg (by omega)]
    · have hx : x = BitVec.ofNat 4 k := BitVec.eq_of_toNat_eq (by omega)
      rw [if_neg (by omega), if_pos hx, if_pos (by omega), heq]
      simp
    · have hx : x ≠ BitVec.ofNat 4 k := fun e => by rw [e, hk] at hgt; omega
      have hs : x.toNat - k = x.toNat - (k + 1) + 1 := by omega
      rw [if_pos (by omega), if_neg hx, if_pos (by omega), hs]
      simp

/-- The written marks after such a load. -/
theorem State.isWritten_setVFrom_other (s : State) (k : Nat) (bs : List Byte) (r : Source)
    (h : ∀ j, j < bs.length → r ≠ .v (BitVec.ofNat 4 (k + j))) :
    (s.setVFrom k bs).isWritten r = s.isWritten r := by
  induction bs generalizing s k with
  | nil => rfl
  | cons b bs ih =>
    have h0 : r ≠ .v (BitVec.ofNat 4 k) := h 0 (by simp)
    rw [State.setVFrom, ih, State.isWritten_setV_other _ _ _ _ h0]
    intro j hj
    have := h (j + 1) (by simpa using hj)
    rwa [show k + (j + 1) = k + 1 + j by omega] at this

/-- What the two orders of R122 leave in the registers. -/
theorem State.getV_setFlagged (s : State) (x y : Nibble) (r f : Byte) :
    (s.setFlagged x (r, f)).getV y =
      if y = VF then (if x = VF ∧ s.cfg.vfDest = .resultLast then r else f) else if y = x then r else s.getV y := by
  unfold State.setFlagged
  cases hp : s.cfg.vfDest <;> simp only [State.getV_setV]
  · simp
  · by_cases hy : y = VF
    · subst hy
      by_cases hx : x = VF
      · simp [hx]
      · simp [hx, Ne.symm hx]
    · simp [hy]

theorem State.isWritten_setFlagged_dest (s : State) (x : Nibble) (rf : Byte × Byte) :
    (s.setFlagged x rf).isWritten (.v x) = true ∧ (s.setFlagged x rf).isWritten (.v VF) = true := by
  unfold State.setFlagged
  cases s.cfg.vfDest
  · refine ⟨?_, State.isWritten_setV_same _ _ _⟩
    by_cases hx : x = VF
    · subst hx; exact State.isWritten_setV_same _ _ _
    · rw [State.isWritten_setV_other _ _ _ _ (by simpa using hx)]; exact State.isWritten_setV_same _ _ _
  · refine ⟨State.isWritten_setV_same _ _ _, ?_⟩
    by_cases hx : x = VF
    · subst hx; exact State.isWritten_setV_same _ _ _
    · rw [State.isWritten_setV_other _ _ _ _ (by simpa using Ne.symm hx)]; exact State.isWritten_setV_same _ _ _

theorem State.isWritten_setFlagged_other (s : State) (x : Nibble) (rf : Byte × Byte) (r : Source)
    (hx : r ≠ .v x) (hf : r ≠ .v VF) : (s.setFlagged x rf).isWritten r = s.isWritten r := by
  unfold State.setFlagged
  cases s.cfg.vfDest <;>
    simp [State.isWritten_setV_other, hx, hf]

end Sys2Proof.Machine
end

