-- ==== Sys2Proof/Laws/Exec.lean ====
section
/-! SUPPORT. Everything an instruction can do, said once: its check, its effect, and that `exec` is the one or the other;
and the laws of the checks. -/

namespace Sys2Proof.Machine

/-- The checks each instruction makes before its first write, in the order of R221. -/
def checkOf (i : Instr) (s : State) : Option Raise :=
  match i with
  | .cls | .ret | .jp _ | .ldImm _ _ | .ldI _ | .rnd _ _ | .ldVxK _ => none
  | .sys _ => some ⟨.nativeCallUnsupported, none⟩
  | .call _ => s.stackCheck
  | .seImm x _ | .sneImm x _ | .addImm x _ | .shr x _ | .shl x _ => s.readCheck [.v x]
  | .ldDtVx x | .ldStVx x | .ldF x => s.readCheck [.v x]
  | .ldReg _ y => s.readCheck [.v y]
  | .seReg x y | .sneReg x y | .orReg x y | .andReg x y | .xorReg x y => s.readCheck [.v x, .v y]
  | .addReg x y | .subReg x y | .subnReg x y => s.readCheck [.v x, .v y]
  | .jpV0 _ => s.readCheck [.v 0#4]
  | .drw x y n => (s.readCheck [.v x, .v y, .i]).or (precheck (loadFault s.cfg) s.base n.toNat)
  | .skp x | .sknp x => (s.readCheck [.v x]).or (keyCheck s.cfg (s.getV x))
  | .ldVxDt _ => s.readCheck [.dt]
  | .addI x => s.readCheck [.v x, .i]
  | .ldB x => (s.readCheck [.v x, .i]).or (precheck (storeFault s.cfg) s.base 3)
  | .ldMemVx x => (s.readCheck (firstSources x ++ [.i])).or (precheck (storeFault s.cfg) s.base (regCount x))
  | .ldVxMem x => (s.readCheck [.i]).or (precheck (loadFault s.cfg) s.base (regCount x))

/-- The state each instruction's effect gives, once its checks have passed. -/
def effectOf (i : Instr) (s : State) : State :=
  match i with
  | .cls => (s.advance.setDisp (blank s.cfg)).markDirty true
  | .ret => s.advance.popPC
  | .sys _ => s
  | .jp nnn => s.advance.setPC (absolute nnn)
  | .call nnn => s.advance.pushPC.setPC (absolute nnn)
  | .seImm x nn => s.advance.skipIf (s.getV x == nn)
  | .sneImm x nn => s.advance.skipIf (s.getV x != nn)
  | .seReg x y => s.advance.skipIf (s.getV x == s.getV y)
  | .ldImm x nn => s.advance.setV x nn
  | .addImm x nn => s.advance.setV x (s.getV x + nn)
  | .ldReg x y => s.advance.setV x (s.getV y)
  | .orReg x y => s.advance.setV x (s.getV x ||| s.getV y)
  | .andReg x y => s.advance.setV x (s.getV x &&& s.getV y)
  | .xorReg x y => s.advance.setV x (s.getV x ^^^ s.getV y)
  | .addReg x y => s.advance.setFlagged x (addFlags (s.getV x) (s.getV y))
  | .subReg x y => s.advance.setFlagged x (subFlags (s.getV x) (s.getV y))
  | .shr x _ => s.advance.setFlagged x (shrFlags (s.getV x))
  | .subnReg x y => s.advance.setFlagged x (subFlags (s.getV y) (s.getV x))
  | .shl x _ => s.advance.setFlagged x (shlFlags (s.getV x))
  | .sneReg x y => s.advance.skipIf (s.getV x != s.getV y)
  | .ldI nnn => s.advance.setI (absolute nnn)
  | .jpV0 nnn => s.advance.setPC (zextByte (s.getV 0#4) + absolute nnn)
  | .rnd x nn => s.advance.setV x (s.inputs.rand &&& nn)
  | .drw x y n => ((s.advance.setDisp (s.blit x y n).disp).markDirty (s.blit x y n).changed).setV VF
      (flagByte (s.blit x y n).collide)
  | .skp x => s.advance.skipIf (s.keyDown (keyIndex (s.getV x)))
  | .sknp x => s.advance.skipIf (!s.keyDown (keyIndex (s.getV x)))
  | .ldVxDt x => s.advance.setV x s.dt
  | .ldVxK x => s.advance.takeKey x s.pressed
  | .ldDtVx x => s.advance.setDT (s.getV x)
  | .ldStVx x => s.advance.setST (s.getV x)
  | .addI x => s.advance.setI (s.i + zextByte (s.getV x))
  | .ldF x => s.advance.setI (glyphAddr s.cfg (s.getV x))
  | .ldB x => s.advance.storeBytes s.base (bcdDigits (s.getV x))
  | .ldMemVx x => s.advance.storeBytes s.base (s.firstV x)
  | .ldVxMem x => s.advance.setVFrom 0 (s.readBytes s.base (regCount x))

/-- Every instruction answers a next state: that of its first failed check's fault, or that of its effect. -/
theorem exec_eq_attempt (i : Instr) (s : State) : exec i s = attempt i (checkOf i s) s (effectOf i s) := by
  cases i <;> rfl

@[simp] theorem attempt_none (i : Instr) (s t : State) : attempt i none s t = .next t := rfl

@[simp] theorem attempt_some (i : Instr) (r : Raise) (s t : State) :
    attempt i (some r) s t = .next (s.enterFault (some (encode i)) r) := rfl

/-- Where the checks pass, the instruction has its effect. -/
theorem exec_of_check_none {i : Instr} {s : State} (h : checkOf i s = none) : exec i s = .next (effectOf i s) := by
  rw [exec_eq_attempt, h]; rfl

/-- Where a check fails, the instruction takes its fault and has no effect (R206). -/
theorem exec_of_check_some {i : Instr} {s : State} {r : Raise} (h : checkOf i s = some r) :
    exec i s = .next (s.enterFault (some (encode i)) r) := by
  rw [exec_eq_attempt, h]; rfl

/-- What `exec` can do, both ways out. -/
theorem exec_cases {i : Instr} {s t : State} (h : exec i s = .next t) :
    (∃ r, checkOf i s = some r ∧ t = s.enterFault (some (encode i)) r) ∨ (checkOf i s = none ∧ t = effectOf i s) := by
  cases hc : checkOf i s with
  | some r => rw [exec_of_check_some hc] at h; exact .inl ⟨r, rfl, (Host.Outcome.next.inj h).symm⟩
  | none => rw [exec_of_check_none hc] at h; exact .inr ⟨rfl, (Host.Outcome.next.inj h).symm⟩

/-! ### The checks -/

theorem readCheck_eq_none_iff (s : State) (rs : List Source) : s.readCheck rs = none ↔ s.readable rs = true := by
  unfold State.readCheck; split <;> simp_all

theorem readCheck_eq_some_iff (s : State) (rs : List Source) (r : Raise) :
    s.readCheck rs = some r ↔ s.readable rs = false ∧ r = ⟨.unwrittenRead, none⟩ := by
  unfold State.readCheck
  split
  · simp_all
  · simp only [Option.some.injEq]
    exact ⟨fun h => ⟨Bool.not_eq_true _ ▸ ‹¬_›, h.symm⟩, fun h => h.2.symm⟩

/-- The checks of an instruction begin with the check of R207 on the registers that `reads` lists (R22). -/
theorem checkOf_of_not_readable (i : Instr) (s : State) (h : s.readable (reads i) = false) :
    checkOf i s = some ⟨.unwrittenRead, none⟩ := by
  have hnil : s.readable [] = true := by unfold State.readable; cases s.cfg.resetReg <;> rfl
  have hc := (readCheck_eq_some_iff s (reads i) ⟨.unwrittenRead, none⟩).2 ⟨h, rfl⟩
  cases i <;> first
    | exact hc
    | exact absurd (hnil.symm.trans h) (by decide)
    | (simp only [checkOf]; exact (congrArg (fun o => Option.or o _) hc).trans rfl)

theorem precheck_eq_none_iff (f : Nat → Option Raise) (a m : Nat) :
    precheck f a m = none ↔ ∀ k, k < m → f (a + k) = none := by
  simp [precheck, List.findSome?_eq_none_iff]

/-- The precheck reports the first failing address, in increasing order (R144). -/
theorem precheck_of_first (f : Nat → Option Raise) (a m k : Nat) (r : Raise) (hk : k < m) (hr : f (a + k) = some r)
    (hbefore : ∀ j, j < k → f (a + j) = none) : precheck f a m = some r := by
  have hsplit : List.range m = List.range k ++ (k :: (List.range m).drop (k + 1)) := by
    have h1 : (List.range m).take k = List.range k := by rw [List.take_range, Nat.min_eq_left (by omega)]
    have h2 : (List.range m).drop k = k :: (List.range m).drop (k + 1) := by
      rw [List.drop_eq_getElem_cons (by simpa using hk)]; simp
    rw [← h2, ← h1, List.take_append_drop]
  have hnone : (List.range k).findSome? (fun k => f (a + k)) = none := by
    rw [List.findSome?_eq_none_iff]
    intro x hx
    exact hbefore x (List.mem_range.1 hx)
  rw [precheck, hsplit, List.findSome?_append, hnone]
  simp [hr]

theorem loadFault_eq_none_iff (c : Config) (a : Nat) : loadFault c a = none ↔ a < c.memSize := by
  unfold loadFault; split <;> simp_all

theorem storeFault_eq_none_iff (c : Config) (a : Nat) : storeFault c a = none ↔ Storable c a := by
  unfold storeFault Storable inFont Config.fontBytes
  cases c.fontWrite <;> split <;> simp_all

theorem keyCheck_eq_none_iff (c : Config) (b : Byte) :
    keyCheck c b = none ↔ b.toNat < 16 ∨ c.keyIndex = .mask := by
  unfold keyCheck
  cases c.keyIndex <;> split <;> simp_all

theorem stackCheck_eq_none_iff (s : State) : s.stackCheck = none ↔ s.stack.length ≠ s.cfg.stackDepth := by
  unfold State.stackCheck; split <;> simp_all

/-! ### Faults -/

/-- Fault entry has the whole effect of R201 and no other. -/
theorem tookFault_enterFault (s : State) (w : Option Word) (r : Raise) :
    TookFault ⟨r.kind, w, s.pc, r.ea⟩ s (s.enterFault w r) := by
  refine ⟨rfl, rfl, fun p hp => ?_⟩
  cases p <;> first | rfl | simp at hp

/-! ### The key choice -/

theorem mem_downKeys (keys : Keys) (k : Nibble) : k ∈ downKeys keys ↔ keys[k.toNat]'k.isLt = true := by
  simp only [downKeys, List.mem_filter, List.mem_map, List.mem_range, and_iff_right_iff_imp]
  exact fun _ => ⟨k.toNat, k.isLt, by simp⟩

/-- `choose_pressed` gives nothing exactly when no key is down (R43). -/
theorem choosePressed_eq_none_iff (keys : Keys) (pick : Nat) :
    choosePressed keys pick = none ↔ ∀ k : Nibble, keys[k.toNat]'k.isLt = false := by
  rw [choosePressed, List.getElem?_eq_none_iff]
  constructor
  · intro h k
    have h0 : (downKeys keys).length = 0 := by
      rcases Nat.eq_zero_or_pos (downKeys keys).length with h0 | h0
      · exact h0
      · exact absurd h (Nat.not_le.2 (Nat.mod_lt _ h0))
    have hnil := List.eq_nil_of_length_eq_zero h0
    cases hk : keys[k.toNat]'k.isLt
    · rfl
    · have := (mem_downKeys keys k).2 hk
      simp [hnil] at this
  · intro h
    have hnil : downKeys keys = [] := by
      rw [List.eq_nil_iff_forall_not_mem]
      intro k hk
      have := (mem_downKeys keys k).1 hk
      simp [h k] at this
    simp [hnil]

/-- The key it gives is down (R43). -/
theorem choosePressed_down {keys : Keys} {pick : Nat} {k : Nibble} (h : choosePressed keys pick = some k) :
    keys[k.toNat]'k.isLt = true :=
  (mem_downKeys keys k).1 (List.mem_of_getElem? h)

/-- Every key that is down is some choice's (R43). -/
theorem choosePressed_any {keys : Keys} {k : Nibble} (h : keys[k.toNat]'k.isLt = true) :
    ∃ pick, choosePressed keys pick = some k := by
  obtain ⟨j, hj, hk⟩ := List.getElem_of_mem ((mem_downKeys keys k).2 h)
  refine ⟨j, ?_⟩
  rw [choosePressed, Nat.mod_eq_of_lt hj, List.getElem?_eq_getElem hj, hk]

end Sys2Proof.Machine
end

