-- ==== Sys2Proof/Laws/Frame.lean ====
section
/-! SUPPORT. Frames: how they compose, and the parts each named operation changes. -/

namespace Sys2Proof.Machine

theorem Keeps.refl (s : State) : Keeps [] s s := by
  intro p _; cases p <;> rfl

theorem Part.same_trans {p : Part} {s t u : State} (h1 : p.same s t) (h2 : p.same t u) : p.same s u := by
  cases p <;> exact h2.trans h1

theorem Keeps.mono {l l' : List Part} {s t : State} (h : Keeps l s t) (hl : ∀ p ∈ l, p ∈ l') : Keeps l' s t :=
  fun p hp => h p fun hp' => hp (hl p hp')

theorem Keeps.trans {l l' : List Part} {s t u : State} (h1 : Keeps l s t) (h2 : Keeps l' t u) : Keeps (l ++ l') s u :=
  fun p hp => Part.same_trans (h1 p fun h => hp (by simp [h])) (h2 p fun h => hp (by simp [h]))

/-- Two updates that change the same parts. -/
theorem Keeps.trans_same {l : List Part} {s t u : State} (h1 : Keeps l s t) (h2 : Keeps l t u) : Keeps l s u :=
  (h1.trans h2).mono (by simp)

theorem keeps_advance (s : State) : Keeps [.pc] s s.advance := by
  intro p hp; cases p <;> first | rfl | simp at hp

theorem keeps_setPC (s : State) (a : Addr) : Keeps [.pc] s (s.setPC a) := by
  intro p hp; cases p <;> first | rfl | simp at hp

theorem keeps_skipIf (s : State) (p : Bool) : Keeps [.pc] s (s.skipIf p) := by
  cases p
  · exact (Keeps.refl s).mono (by simp)
  · exact keeps_setPC s _

theorem keeps_setV (s : State) (x : Nibble) (b : Byte) : Keeps (vParts x) s (s.setV x b) := by
  intro p hp
  simp only [vParts, List.mem_cons, List.not_mem_nil, or_false, not_or] at hp
  cases p with
  | v y => exact State.getV_setV_other s b fun e => hp.1 (by rw [e])
  | written r => exact State.isWritten_setV_other s x b r fun e => hp.2 (by rw [e])
  | _ => rfl

theorem keeps_setFlagged (s : State) (x : Nibble) (rf : Byte × Byte) :
    Keeps (vParts x ++ vParts VF) s (s.setFlagged x rf) := by
  unfold State.setFlagged
  cases s.cfg.vfDest
  · exact (keeps_setV s x rf.1).trans (keeps_setV _ VF rf.2)
  · exact ((keeps_setV s VF rf.2).trans (keeps_setV _ x rf.1)).mono (by simp [or_comm])

theorem keeps_setI (s : State) (a : Addr) : Keeps [.i, .written .i] s (s.setI a) := by
  intro p hp
  cases p with
  | written r => exact (State.isWritten_setI s a r).trans (if_neg fun e => hp (by simp [e]))
  | i => simp at hp
  | _ => rfl

theorem keeps_setDT (s : State) (b : Byte) : Keeps [.dt, .written .dt] s (s.setDT b) := by
  intro p hp
  cases p with
  | written r => exact (State.isWritten_setDT s b r).trans (if_neg fun e => hp (by simp [e]))
  | dt => simp at hp
  | _ => rfl

theorem keeps_setST (s : State) (b : Byte) : Keeps [.st, .written .st] s (s.setST b) := by
  intro p hp
  cases p with
  | written r => exact (State.isWritten_setST s b r).trans (if_neg fun e => hp (by simp [e]))
  | st => simp at hp
  | _ => rfl

theorem keeps_pushPC (s : State) : Keeps [.stack] s s.pushPC := by
  intro p hp; cases p <;> first | rfl | simp at hp

theorem keeps_popPC (s : State) : Keeps [.pc, .stack] s s.popPC := by
  intro p hp
  unfold State.popPC
  split <;> cases p <;> first | rfl | simp at hp

theorem keeps_setDisp (s : State) (d : Display) : Keeps [.disp] s (s.setDisp d) := by
  intro p hp; cases p <;> first | rfl | simp at hp

theorem keeps_markDirty (s : State) (q : Bool) : Keeps [.dirty] s (s.markDirty q) := by
  intro p hp; cases p <;> first | rfl | simp at hp

theorem keeps_storeBytes (s : State) (a : Nat) (bs : List Byte) :
    Keeps (byteParts a bs.length) s (s.storeBytes a bs) := by
  intro p hp
  cases p with
  | byte k =>
    refine State.readByte_storeBytes_outside s a bs ?_
    by_contra hk
    refine hp (List.mem_map.2 ⟨k - a, List.mem_range.2 (by omega), ?_⟩)
    rw [show a + (k - a) = k by omega]
  | _ => rfl

theorem keeps_setVFrom (s : State) (k : Nat) (bs : List Byte) :
    Keeps ((List.range bs.length).flatMap fun j => vParts (BitVec.ofNat 4 (k + j))) s (s.setVFrom k bs) := by
  induction bs generalizing s k with
  | nil => exact Keeps.refl s
  | cons b bs ih =>
    refine ((keeps_setV s (BitVec.ofNat 4 k) b).trans (ih _ (k + 1))).mono fun p hp => ?_
    simp only [List.mem_append, List.mem_flatMap, List.mem_range, List.length_cons] at hp ⊢
    rcases hp with hp | ⟨j, hj, hp⟩
    · exact ⟨0, by omega, by simpa using hp⟩
    · exact ⟨j + 1, by omega, by rwa [show k + (j + 1) = k + 1 + j by omega]⟩

theorem keeps_enterFault (s : State) (w : Option Word) (r : Raise) : Keeps [.halt, .outputs] s (s.enterFault w r) :=
  (tookFault_enterFault s w r).2.2

theorem keeps_frameTick (s : State) : Keeps [.dt, .st, .dirty, .tone, .outputs] s s.frameTick := by
  intro p hp
  unfold State.frameTick State.presentIfDirty
  split <;> cases p <;> first | rfl | simp at hp

theorem keeps_quitNow (s : State) : Keeps [.halt] s s.quitNow := by
  intro p hp; cases p <;> first | rfl | simp at hp

end Sys2Proof.Machine
end

