-- ==== Sys2Proof/Laws/PerInstr.lean ====
section
/-! SUPPORT. The family OpcodeMap: the word of each operation has the fixed fields that 30_encoding.md R73 and R74 give it. -/

namespace Sys2Proof.Laws.OpcodeMap

/-- The fixed fields of an operation's word: the group `a`, and the selector `n` or `nn` where its group has one. -/
structure Fixed where
  group : Nibble
  n : Option Nibble
  nn : Option Byte
deriving DecidableEq, Repr

/-- The fixed fields by R73 and R74. -/
def fixedOf (i : Instr) : Fixed :=
  match i with
  | .cls => ⟨0x0, none, some 0xE0⟩
  | .ret => ⟨0x0, none, some 0xEE⟩
  | .sys _ => ⟨0x0, none, none⟩
  | .jp _ => ⟨0x1, none, none⟩
  | .call _ => ⟨0x2, none, none⟩
  | .seImm _ _ => ⟨0x3, none, none⟩
  | .sneImm _ _ => ⟨0x4, none, none⟩
  | .seReg _ _ => ⟨0x5, some 0x0, none⟩
  | .ldImm _ _ => ⟨0x6, none, none⟩
  | .addImm _ _ => ⟨0x7, none, none⟩
  | .ldReg _ _ => ⟨0x8, some 0x0, none⟩
  | .orReg _ _ => ⟨0x8, some 0x1, none⟩
  | .andReg _ _ => ⟨0x8, some 0x2, none⟩
  | .xorReg _ _ => ⟨0x8, some 0x3, none⟩
  | .addReg _ _ => ⟨0x8, some 0x4, none⟩
  | .subReg _ _ => ⟨0x8, some 0x5, none⟩
  | .shr _ _ => ⟨0x8, some 0x6, none⟩
  | .subnReg _ _ => ⟨0x8, some 0x7, none⟩
  | .shl _ _ => ⟨0x8, some 0xE, none⟩
  | .sneReg _ _ => ⟨0x9, some 0x0, none⟩
  | .ldI _ => ⟨0xA, none, none⟩
  | .jpV0 _ => ⟨0xB, none, none⟩
  | .rnd _ _ => ⟨0xC, none, none⟩
  | .drw _ _ _ => ⟨0xD, none, none⟩
  | .skp _ => ⟨0xE, none, some 0x9E⟩
  | .sknp _ => ⟨0xE, none, some 0xA1⟩
  | .ldVxDt _ => ⟨0xF, none, some 0x07⟩
  | .ldVxK _ => ⟨0xF, none, some 0x0A⟩
  | .ldDtVx _ => ⟨0xF, none, some 0x15⟩
  | .ldStVx _ => ⟨0xF, none, some 0x18⟩
  | .addI _ => ⟨0xF, none, some 0x1E⟩
  | .ldF _ => ⟨0xF, none, some 0x29⟩
  | .ldB _ => ⟨0xF, none, some 0x33⟩
  | .ldMemVx _ => ⟨0xF, none, some 0x55⟩
  | .ldVxMem _ => ⟨0xF, none, some 0x65⟩

/-- The word of `i` has the fixed fields of its operation. -/
def Statement (i : Instr) : Prop :=
  fieldA (encode i) = (fixedOf i).group ∧
    (∀ n ∈ (fixedOf i).n, fieldN (encode i) = n) ∧ ∀ nn ∈ (fixedOf i).nn, fieldNN (encode i) = nn

theorem cls : Statement .cls := ⟨by decide, by decide, by decide⟩
theorem ret : Statement .ret := ⟨by decide, by decide, by decide⟩
theorem sys (nnn : Imm12) : Statement (.sys nnn) := by simp [Statement, fixedOf, encode]
theorem jp (nnn : Imm12) : Statement (.jp nnn) := by simp [Statement, fixedOf, encode]
theorem call (nnn : Imm12) : Statement (.call nnn) := by simp [Statement, fixedOf, encode]
theorem seImm (x : Nibble) (nn : Byte) : Statement (.seImm x nn) := by simp [Statement, fixedOf, encode]
theorem sneImm (x : Nibble) (nn : Byte) : Statement (.sneImm x nn) := by simp [Statement, fixedOf, encode]
theorem seReg (x : Nibble) (y : Nibble) : Statement (.seReg x y) := by simp [Statement, fixedOf, encode]
theorem ldImm (x : Nibble) (nn : Byte) : Statement (.ldImm x nn) := by simp [Statement, fixedOf, encode]
theorem addImm (x : Nibble) (nn : Byte) : Statement (.addImm x nn) := by simp [Statement, fixedOf, encode]
theorem ldReg (x : Nibble) (y : Nibble) : Statement (.ldReg x y) := by simp [Statement, fixedOf, encode]
theorem orReg (x : Nibble) (y : Nibble) : Statement (.orReg x y) := by simp [Statement, fixedOf, encode]
theorem andReg (x : Nibble) (y : Nibble) : Statement (.andReg x y) := by simp [Statement, fixedOf, encode]
theorem xorReg (x : Nibble) (y : Nibble) : Statement (.xorReg x y) := by simp [Statement, fixedOf, encode]
theorem addReg (x : Nibble) (y : Nibble) : Statement (.addReg x y) := by simp [Statement, fixedOf, encode]
theorem subReg (x : Nibble) (y : Nibble) : Statement (.subReg x y) := by simp [Statement, fixedOf, encode]
theorem shr (x : Nibble) (y : Nibble) : Statement (.shr x y) := by simp [Statement, fixedOf, encode]
theorem subnReg (x : Nibble) (y : Nibble) : Statement (.subnReg x y) := by simp [Statement, fixedOf, encode]
theorem shl (x : Nibble) (y : Nibble) : Statement (.shl x y) := by simp [Statement, fixedOf, encode]
theorem sneReg (x : Nibble) (y : Nibble) : Statement (.sneReg x y) := by simp [Statement, fixedOf, encode]
theorem ldI (nnn : Imm12) : Statement (.ldI nnn) := by simp [Statement, fixedOf, encode]
theorem jpV0 (nnn : Imm12) : Statement (.jpV0 nnn) := by simp [Statement, fixedOf, encode]
theorem rnd (x : Nibble) (nn : Byte) : Statement (.rnd x nn) := by simp [Statement, fixedOf, encode]
theorem drw (x : Nibble) (y : Nibble) (n : Nibble) : Statement (.drw x y n) := by simp [Statement, fixedOf, encode]
theorem skp (x : Nibble) : Statement (.skp x) := by simp [Statement, fixedOf, encode]
theorem sknp (x : Nibble) : Statement (.sknp x) := by simp [Statement, fixedOf, encode]
theorem ldVxDt (x : Nibble) : Statement (.ldVxDt x) := by simp [Statement, fixedOf, encode]
theorem ldVxK (x : Nibble) : Statement (.ldVxK x) := by simp [Statement, fixedOf, encode]
theorem ldDtVx (x : Nibble) : Statement (.ldDtVx x) := by simp [Statement, fixedOf, encode]
theorem ldStVx (x : Nibble) : Statement (.ldStVx x) := by simp [Statement, fixedOf, encode]
theorem addI (x : Nibble) : Statement (.addI x) := by simp [Statement, fixedOf, encode]
theorem ldF (x : Nibble) : Statement (.ldF x) := by simp [Statement, fixedOf, encode]
theorem ldB (x : Nibble) : Statement (.ldB x) := by simp [Statement, fixedOf, encode]
theorem ldMemVx (x : Nibble) : Statement (.ldMemVx x) := by simp [Statement, fixedOf, encode]
theorem ldVxMem (x : Nibble) : Statement (.ldVxMem x) := by simp [Statement, fixedOf, encode]

end Sys2Proof.Laws.OpcodeMap
end

