-- ==== Sys2Proof/Laws/Step.lean ====
section
/-! SUPPORT. Everything a step can do, said once. -/

namespace Sys2Proof.Machine

theorem step_of_running {s : State} (h : s.halt = .running) : step s = runNext s := by
  unfold step; rw [h]

/-- A block that is not running takes no step (R38). -/
theorem step_of_faulted {s : State} {r : FaultRecord} (h : s.halt = .faulted r) : step s = .fault (.faulted r) := by
  unfold step; rw [h]

theorem step_of_quit {s : State} (h : s.halt = .quit) : step s = .fault .quit := by
  unfold step; rw [h]

theorem runNext_of_idle {s : State} (h : s.pending = []) : runNext s = runOpcode s.drawn := by
  unfold runNext; split <;> simp_all

theorem runNext_of_event {s : State} {e : Event} {rest : List Event} (h : s.pending = e :: rest) :
    runNext s = applyEvent e { s with pending := rest } := by
  unfold runNext; split <;> simp_all

/-- A step whose next event is an opcode tick runs one opcode on the sampled state (R230). -/
theorem step_of_startsOpcode {s s' : State} (h : StartsOpcode s s') : step s = runOpcode s' := by
  obtain ⟨hrun, ⟨hp, rfl⟩ | ⟨inp, rest, hp, rfl⟩⟩ := h
  · rw [step_of_running hrun, runNext_of_idle hp]; rfl
  · rw [step_of_running hrun, runNext_of_event hp]; rfl

theorem step_of_frameTick {s : State} {rest : List Event} (h : s.halt = .running) (hp : s.pending = .frameTick :: rest) :
    step s = .next ({ s with pending := rest } : State).frameTick := by
  rw [step_of_running h, runNext_of_event hp]; rfl

theorem step_of_quitEvent {s : State} {rest : List Event} (h : s.halt = .running) (hp : s.pending = .quit :: rest) :
    step s = .next ({ s with pending := rest } : State).quitNow := by
  rw [step_of_running h, runNext_of_event hp]; rfl

theorem fetchCheck_eq_none_iff (s : State) : s.fetchCheck = none ↔ Fetchable s := by
  unfold State.fetchCheck Fetchable
  split
  · rename_i h
    simp only [reduceCtorEq, false_iff, not_and]
    rintro (h' | h')
    · omega
    · simp [h.2] at h'
  · rename_i h
    rw [Option.or_eq_none_iff, loadFault_eq_none_iff, loadFault_eq_none_iff]
    have hpol : s.cfg.oddPc = .fault ∨ s.cfg.oddPc = .fetch := by cases s.cfg.oddPc <;> simp
    constructor
    · rintro ⟨-, h2⟩
      refine ⟨?_, h2⟩
      rcases hpol with hp | hp
      · exact .inl (by have : ¬(s.pc.toNat % 2 = 1) := fun e => h ⟨e, hp⟩
                       omega)
      · exact .inr hp
    · rintro ⟨-, h2⟩
      exact ⟨by omega, h2⟩

/-- Where the fetched word decodes, the opcode tick is the instruction's meaning (R84). -/
theorem runOpcode_of_decode {s : State} {i : Instr} (hf : Fetchable s) (hd : decodeWord s.fetchWord = .ok i) :
    runOpcode s = exec i s := by
  rw [runOpcode, (fetchCheck_eq_none_iff s).2 hf]
  simp only [runWord, hd]

theorem runOpcode_of_illegal {s : State} {e : DecodeError} (hf : Fetchable s) (hd : decodeWord s.fetchWord = .error e) :
    runOpcode s = .next (s.enterFault (some s.fetchWord) ⟨.unknownOpcode, none⟩) := by
  rw [runOpcode, (fetchCheck_eq_none_iff s).2 hf]
  simp only [runWord, hd]

theorem runOpcode_of_fetchCheck {s : State} {r : Raise} (h : s.fetchCheck = some r) :
    runOpcode s = .next (s.enterFault none r) := by
  rw [runOpcode, h]

/-- What an opcode tick can do: take a fault, or have the effect of the instruction it fetched. -/
theorem runOpcode_cases {s t : State} (h : runOpcode s = .next t) :
    (∃ w r, t = s.enterFault w r) ∨
      ∃ i, Fetchable s ∧ decodeWord s.fetchWord = .ok i ∧ checkOf i s = none ∧ t = effectOf i s := by
  cases hf : s.fetchCheck with
  | some r => rw [runOpcode_of_fetchCheck hf] at h; exact .inl ⟨none, r, (Host.Outcome.next.inj h).symm⟩
  | none =>
    have hf' := (fetchCheck_eq_none_iff s).1 hf
    cases hd : decodeWord s.fetchWord with
    | error e =>
      rw [runOpcode_of_illegal hf' hd] at h
      exact .inl ⟨_, _, (Host.Outcome.next.inj h).symm⟩
    | ok i =>
      rw [runOpcode_of_decode hf' hd] at h
      rcases exec_cases h with ⟨r, -, rfl⟩ | ⟨hc, rfl⟩
      · exact .inl ⟨_, _, rfl⟩
      · exact .inr ⟨i, hf', rfl, hc, rfl⟩

/-- What a step can do: only a running block steps, by an opcode tick, a frame tick or a quit. -/
theorem step_cases {s t : State} (h : step s = .next t) :
    s.halt = .running ∧
      ((∃ s', StartsOpcode s s' ∧ runOpcode s' = .next t) ∨
        (∃ rest, s.pending = .frameTick :: rest ∧ t = ({ s with pending := rest } : State).frameTick) ∨
        ∃ rest, s.pending = .quit :: rest ∧ t = ({ s with pending := rest } : State).quitNow) := by
  have hh : s.halt = .running := by
    cases hh : s.halt with
    | running => rfl
    | faulted r => rw [step_of_faulted hh] at h; cases h
    | quit => rw [step_of_quit hh] at h; cases h
  refine ⟨hh, ?_⟩
  cases hp : s.pending with
  | nil =>
    have hs : StartsOpcode s { s with sample := none, draws := s.draws + 1 } := ⟨hh, .inl ⟨hp, rfl⟩⟩
    exact .inl ⟨_, hs, by rw [← step_of_startsOpcode hs, h]⟩
  | cons e rest =>
    cases e with
    | opcodeTick inp =>
      have hs : StartsOpcode s { s with pending := rest, sample := some inp } := ⟨hh, .inr ⟨inp, rest, hp, rfl⟩⟩
      exact .inl ⟨_, hs, by rw [← step_of_startsOpcode hs, h]⟩
    | frameTick =>
      rw [step_of_frameTick hh hp] at h
      exact .inr (.inl ⟨rest, rfl, (Host.Outcome.next.inj h).symm⟩)
    | quit =>
      rw [step_of_quitEvent hh hp] at h
      exact .inr (.inr ⟨rest, rfl, (Host.Outcome.next.inj h).symm⟩)

end Sys2Proof.Machine
end

