-- ==== Sys2Proof/Laws/Schedule.lean ====
section
/-! SUPPORT. The clock state (10_state.md R36): what time passing and an iteration do to it, and that no event touches it. -/

namespace Sys2Proof.Machine

@[simp] theorem Clock.pass_elapsed (k : Clock) (p : Nat) : (k.pass p).elapsed = k.elapsed + p := rfl
@[simp] theorem Clock.pass_opcodeDue (k : Clock) (p : Nat) : (k.pass p).opcodeDue = k.opcodeDue := rfl
@[simp] theorem Clock.pass_frameDue (k : Clock) (p : Nat) : (k.pass p).frameDue = k.frameDue := rfl
@[simp] theorem Clock.advance_elapsed (k : Clock) (c : Config) (hz : Nat) : (k.advance c hz).elapsed = k.elapsed := rfl

/-- The elapsed reference is monotonic (R36). -/
theorem Clock.elapsed_le_pass_advance (k : Clock) (c : Config) (hz p : Nat) :
    k.elapsed ≤ ((k.pass p).advance c hz).elapsed := Nat.le_add_right _ _

/-- No instruction writes the clock state (R36). -/
theorem effectOf_clock (i : Instr) (s : State) : (effectOf i s).clock = s.clock := by
  cases i <;> simp [effectOf, State.takeKey]; split <;> simp [State.rewind]

/-- No event changes the clock state: only the scheduler does (R36). -/
theorem deliver_clock {e : Event} {s t : State} (h : deliver e s = .next t) : t.clock = s.clock := by
  unfold deliver at h
  split at h
  · cases e with
    | opcodeTick inp =>
      rcases runOpcode_cases h with ⟨w, r, rfl⟩ | ⟨i, -, -, -, rfl⟩
      · rfl
      · rw [effectOf_clock]; rfl
    | frameTick => cases h; exact keeps_frameTick s .clock (by simp)
    | quit => cases h; rfl
  all_goals cases h; rfl

/-- A run changes the clock state nowhere. -/
theorem deliverAll_clock {es : List Event} {s t : State} (h : deliverAll es s = .next t) : t.clock = s.clock := by
  induction es generalizing s with
  | nil => cases h; rfl
  | cons e es ih =>
    unfold deliverAll at h
    split at h
    · rename_i u hu
      rw [ih h, deliver_clock hu]
    all_goals cases h

end Sys2Proof.Machine
end

