-- ==== Sys2Proof/Tests/Slice0.lean ====
section
/-! SUPPORT. Tests with results from outside the model: words written out from the encodings of 30_encoding.md, the vectors of
95_test_vectors.md (each test names its vector), and for every statement with hypotheses a state that meets them. -/

namespace Sys2Proof.Tests

open Sys2Proof Sys2Proof.Machine

/-! ### Helpers -/

/-- What `f` reads from the next state of an outcome, if it is one. -/
def got {α : Type} (f : State → α) (o : Host.Outcome State Fault Refusal) : Option α :=
  match o with
  | .next t => some (f t)
  | .fault _ => none
  | .refused _ => none

/-- An outcome from which something can be read is a next state. -/
theorem next_of_got {o : Host.Outcome State Fault Refusal} (h : (got (fun _ => ()) o).isSome = true) : ∃ t, o = .next t := by
  cases o with
  | next t => exact ⟨t, rfl⟩
  | fault r => cases h
  | refused r => cases h

/-- Reset with `VF = 0x55` and some registers set, as section 2.3 of the vectors asks. -/
def regs (vs : List (Nibble × Byte)) : State := vs.foldl (fun s p => s.setV p.1 p.2) (State.reset.setV VF 0x55#8)

/-- Reset with `I = a`, some registers set, and some bytes stored at an address. -/
def mems (a : Addr) (vs : List (Nibble × Byte)) (at_ : Nat) (bs : List Byte) : State := ((regs vs).setI a).storeBytes at_ bs

/-- Reset with another `PC`. -/
def atPC (pc : Addr) : State := { State.reset with pc := pc }

/-- A state under other parameters. -/
def under (c : Config) (s : State) : State := { s with cfg := c }

/-- The default parameters with `RESET_REG_POLICY = unwritten_faults`. -/
def strictCfg : Config := { defaultConfig with resetReg := .unwrittenFaults }

/-- The default parameters with `ODD_PC_POLICY = fetch`. -/
def oddCfg : Config := { defaultConfig with oddPc := .fetch }

/-- The default parameters with `VF_DEST_POLICY = result_last`. -/
def lastCfg : Config := { defaultConfig with vfDest := .resultLast }

/-- The default parameters with `KEY_INDEX_POLICY = mask`. -/
def maskCfg : Config := { defaultConfig with keyIndex := .mask }

/-- The default parameters with `FONT_WRITE_POLICY = write`. -/
def patchCfg : Config := { defaultConfig with fontWrite := .write }

/-- Inputs with the listed keys down. -/
def keysDown (ks : List Nibble) (rand : Byte) (pick : Nat) : Inputs :=
  ⟨ks.foldl (fun v k => v.set k.toNat true k.isLt) (Vector.replicate 16 false), rand, pick⟩

/-- A state with sampled inputs. -/
def withInputs (inp : Inputs) (s : State) : State := { s with sample := some inp }

/-- The pixels set in a row of the display. -/
def row (s : State) (r : Nat) : List Nat := (List.range s.cfg.dispW).filter (fun c => pixel s.disp c r)

/-- The rows that have a pixel set. -/
def litRows (s : State) : List Nat := (List.range s.cfg.dispH).filter (fun r => !(row s r).isEmpty)

/-! ### Well-formedness and encodings (30_encoding.md R73 to R80) -/

theorem test_wf_refuses_cls_as_sys : (Instr.sys 0x0E0#12).wellFormed = false := by decide
theorem test_wf_refuses_ret_as_sys : (Instr.sys 0x0EE#12).wellFormed = false := by decide
theorem test_wf_accepts_sys : (Instr.sys 0x0E1#12).wellFormed = true := by decide

theorem test_decode_cls : decodeWord 0b0000_0000_1110_0000#16 = .ok .cls := by decide
theorem test_decode_ret : decodeWord 0b0000_0000_1110_1110#16 = .ok .ret := by decide
theorem test_decode_sys : decodeWord 0b0000_0001_0010_0011#16 = .ok (.sys 0x123) := by decide
theorem test_decode_jp : decodeWord 0b0001_0010_0011_0100#16 = .ok (.jp 0x234) := by decide
theorem test_decode_call : decodeWord 0b0010_0011_0000_0001#16 = .ok (.call 0x301) := by decide
theorem test_decode_seImm : decodeWord 0b0011_0011_0100_0010#16 = .ok (.seImm 3 0x42) := by decide
theorem test_decode_sneImm : decodeWord 0b0100_0011_0100_0010#16 = .ok (.sneImm 3 0x42) := by decide
theorem test_decode_seReg : decodeWord 0b0101_0001_0010_0000#16 = .ok (.seReg 1 2) := by decide
theorem test_decode_ldImm : decodeWord 0b0110_0000_0000_0101#16 = .ok (.ldImm 0 5) := by decide
theorem test_decode_addImm : decodeWord 0b0111_0000_0000_0011#16 = .ok (.addImm 0 3) := by decide
theorem test_decode_ldReg : decodeWord 0b1000_0001_0010_0000#16 = .ok (.ldReg 1 2) := by decide
theorem test_decode_orReg : decodeWord 0b1000_0001_0010_0001#16 = .ok (.orReg 1 2) := by decide
theorem test_decode_andReg : decodeWord 0b1000_0001_0010_0010#16 = .ok (.andReg 1 2) := by decide
theorem test_decode_xorReg : decodeWord 0b1000_0001_0010_0011#16 = .ok (.xorReg 1 2) := by decide
theorem test_decode_addReg : decodeWord 0b1000_0001_0010_0100#16 = .ok (.addReg 1 2) := by decide
theorem test_decode_subReg : decodeWord 0b1000_0001_0010_0101#16 = .ok (.subReg 1 2) := by decide
theorem test_decode_shr : decodeWord 0b1000_0001_1111_0110#16 = .ok (.shr 1 0xF) := by decide
theorem test_decode_subnReg : decodeWord 0b1000_0001_0010_0111#16 = .ok (.subnReg 1 2) := by decide
theorem test_decode_shl : decodeWord 0b1000_0001_0000_1110#16 = .ok (.shl 1 0) := by decide
theorem test_decode_sneReg : decodeWord 0b1001_0001_0010_0000#16 = .ok (.sneReg 1 2) := by decide
theorem test_decode_ldI : decodeWord 0b1010_0011_0000_0000#16 = .ok (.ldI 0x300) := by decide
theorem test_decode_jpV0 : decodeWord 0b1011_0010_0000_0110#16 = .ok (.jpV0 0x206) := by decide
theorem test_decode_rnd : decodeWord 0b1100_0011_0000_1111#16 = .ok (.rnd 3 0x0F) := by decide
theorem test_decode_drw : decodeWord 0b1101_0001_0010_0101#16 = .ok (.drw 1 2 5) := by decide
theorem test_decode_skp : decodeWord 0b1110_0100_1001_1110#16 = .ok (.skp 4) := by decide
theorem test_decode_sknp : decodeWord 0b1110_0100_1010_0001#16 = .ok (.sknp 4) := by decide
theorem test_decode_ldVxDt : decodeWord 0b1111_0011_0000_0111#16 = .ok (.ldVxDt 3) := by decide
theorem test_decode_ldVxK : decodeWord 0b1111_0101_0000_1010#16 = .ok (.ldVxK 5) := by decide
theorem test_decode_ldDtVx : decodeWord 0b1111_0010_0001_0101#16 = .ok (.ldDtVx 2) := by decide
theorem test_decode_ldStVx : decodeWord 0b1111_0010_0001_1000#16 = .ok (.ldStVx 2) := by decide
theorem test_decode_addI : decodeWord 0b1111_0010_0001_1110#16 = .ok (.addI 2) := by decide
theorem test_decode_ldF : decodeWord 0b1111_0000_0010_1001#16 = .ok (.ldF 0) := by decide
theorem test_decode_ldB : decodeWord 0b1111_0000_0011_0011#16 = .ok (.ldB 0) := by decide
theorem test_decode_ldMemVx : decodeWord 0b1111_0010_0101_0101#16 = .ok (.ldMemVx 2) := by decide
theorem test_decode_ldVxMem : decodeWord 0b1111_0010_0110_0101#16 = .ok (.ldVxMem 2) := by decide

/-- Vectors E2 to E5 and S8: words of the illegal space. -/
theorem test_decode_refuses_illegal :
    ([0x8128, 0x8129, 0x812A, 0x812B, 0x812C, 0x812D, 0x812F, 0x5121, 0x9121, 0xE49F, 0xE400, 0xE4A2] ++
      [0xF000, 0xF0FF, 0xF056, 0xF066, 0xF01F, 0xFFFF] : List Word).all (fun w => decodeWord? w == none) = true := by decide

/-- R70: one byte is no instruction. -/
theorem test_decode_truncated : decode [0x12#8] = .error .truncated := by decide

/-- 30_encoding.md R80: the table's word of a row, fields at zero and at their highest. -/
theorem test_decodeTableWord :
    decodeTableWord 16 0xF065 = some (.ldVxMem 0) ∧ decodeTableWord 16 0x8FFE = some (.shl 0xF 0xF) ∧
      decodeTableWord 16 0x5001 = none := by decide

/-! ### Steps, fetch and faults (vectors E1 to E13, 2.7) -/

/-- E1: the first byte of memory is the high byte of the word. -/
theorem test_step_big_endian :
    got (·.pc) (step (State.reset.storeBytes 0x200 [0x12#8, 0x34#8])) = some 0x234#16 := by decide

/-- S7 with `withFetchWord`: the placed word is the one that runs. -/
theorem test_withFetchWord_runs :
    got (fun t => (t.getV 0, t.pc)) (step (State.reset.withFetchWord 16 0x6005)) = some (5#8, 0x202#16) := by decide

/-- E8. -/
theorem test_step_misaligned : got (·.halt) (step (atPC 0x201)) =
    some (.faulted ⟨.misalignedFetch, none, 0x201#16, some 0x201⟩) := by decide

/-- E9. -/
theorem test_step_odd_fetch : got (fun t => (t.getV 0, t.pc))
    (step (under oddCfg ((atPC 0x201).storeBytes 0x201 [0x60#8, 0x05#8]))) = some (5#8, 0x203#16) := by decide

/-- E10. -/
theorem test_step_beyond_memory : got (·.halt) (step (atPC 0x1000)) =
    some (.faulted ⟨.memoryOutOfRange, none, 0x1000#16, some 0x1000⟩) := by decide

/-- E11. -/
theorem test_step_second_byte : got (·.halt) (step (under oddCfg (atPC 0xFFF))) =
    some (.faulted ⟨.memoryOutOfRange, none, 0xFFF#16, some 0x1000⟩) := by decide

/-- E12, P1: alignment before bounds. -/
theorem test_step_alignment_first : got (·.halt) (step (atPC 0x1001)) =
    some (.faulted ⟨.misalignedFetch, none, 0x1001#16, some 0x1001⟩) := by decide

/-- E13: the last word of memory. -/
theorem test_step_last_word :
    got (·.pc) (step ((atPC 0xFFE).storeBytes 0xFFE [0x12#8, 0x00#8])) = some 0x200#16 := by decide

/-- S8 and P2: an unknown opcode, the fault emitted, `PC` kept; decode comes before `UnwrittenRead`. -/
theorem test_step_unknown_opcode :
    got (fun t => (t.halt, t.pc, t.outputs)) (step (under strictCfg (State.reset.withFetchWord 16 0xFFFF))) =
      some (.faulted ⟨.unknownOpcode, some 0xFFFF#16, 0x200#16, none⟩, 0x200#16,
        [.fault ⟨.unknownOpcode, some 0xFFFF#16, 0x200#16, none⟩]) := by decide

/-- L3: after the load of an empty ROM the first step runs `0000`. -/
theorem test_step_empty_rom : got (·.halt) (step State.reset) =
    some (.faulted ⟨.nativeCallUnsupported, some 0x0000#16, 0x200#16, none⟩) := by decide

/-- A38. -/
theorem test_unwritten_read : got (·.halt) (step (under strictCfg (State.reset.withFetchWord 16 0x7003))) =
    some (.faulted ⟨.unwrittenRead, some 0x7003#16, 0x200#16, none⟩) := by decide

/-- P3: an unwritten register comes before the key index. -/
theorem test_unwritten_before_key : got (·.halt) (step (under strictCfg (State.reset.withFetchWord 16 0xE49E))) =
    some (.faulted ⟨.unwrittenRead, some 0xE49E#16, 0x200#16, none⟩) := by decide

/-- The fault of an outcome, if it is one. -/
def stopOf (o : Host.Outcome State Fault Refusal) : Option Fault :=
  match o with
  | .fault r => some r
  | .next _ => none
  | .refused _ => none

/-- K16: a quit ends the block, and the next step is no step. -/
theorem test_quit : got (fun t => (t.halt, stopOf (step t))) (step { State.reset with pending := [.quit, .frameTick] }) =
    some (.quit, some .quit) := by decide

/-! ### Control transfer (vectors 2.2) -/

/-- C1: an empty stack. -/
theorem test_ret_empty : got (fun t => (t.pc, t.stack)) (exec .ret State.reset) = some (0x202#16, []) := by decide

/-- C3: the top is the last pushed. -/
theorem test_ret_pops : got (fun t => (t.pc, t.stack)) (exec .ret { State.reset with stack := [0x202, 0x402] }) =
    some (0x402#16, [0x202#16]) := by decide

/-- C4. -/
theorem test_sys : got (·.halt) (exec (.sys 0x123) State.reset) =
    some (.faulted ⟨.nativeCallUnsupported, some 0x0123#16, 0x200#16, none⟩) := by decide

/-- C5. -/
theorem test_jp : got (·.pc) (exec (.jp 0x234) State.reset) = some 0x234#16 := by decide

/-- C9: the last free entry. -/
theorem test_call_last_entry :
    got (fun t => (t.pc, t.stack.length, t.stack.getLast?))
      (exec (.call 0x300) { State.reset with stack := List.replicate 15 0#16 }) =
      some (0x300#16, 16, some 0x202#16) := by decide

/-- C10: a full stack. -/
theorem test_call_overflow :
    got (fun t => (t.halt, t.pc, t.stack.length)) (exec (.call 0x300) { State.reset with stack := List.replicate 16 0#16 }) =
      some (.faulted ⟨.stackOverflow, some 0x2300#16, 0x200#16, none⟩, 0x200#16, 16) := by decide

/-- C11. -/
theorem test_seImm : got (·.pc) (exec (.seImm 3 0x42) (regs [(3, 0x42)])) = some 0x204#16 ∧
    got (·.pc) (exec (.seImm 3 0x43) (regs [(3, 0x42)])) = some 0x202#16 := by decide

/-- C12. -/
theorem test_sneImm : got (·.pc) (exec (.sneImm 3 0x43) (regs [(3, 0x42)])) = some 0x204#16 ∧
    got (·.pc) (exec (.sneImm 3 0x42) (regs [(3, 0x42)])) = some 0x202#16 := by decide

/-- C13, C14. -/
theorem test_seReg : got (·.pc) (exec (.seReg 1 2) (regs [(1, 7), (2, 7)])) = some 0x204#16 ∧
    got (·.pc) (exec (.seReg 1 2) (regs [(1, 7), (2, 8)])) = some 0x202#16 := by decide

/-- C14, C15. -/
theorem test_sneReg : got (·.pc) (exec (.sneReg 1 2) (regs [(1, 7), (2, 8)])) = some 0x204#16 ∧
    got (·.pc) (exec (.sneReg 1 1) (regs [(1, 7)])) = some 0x202#16 := by decide

/-- C17, C18: the indexed jump is not masked to 12 bits. -/
theorem test_jpV0 : got (·.pc) (exec (.jpV0 0x206) (regs [(0, 4)])) = some 0x20A#16 ∧
    got (·.pc) (exec (.jpV0 0xFFF) (regs [(0, 0xFF)])) = some 0x10FE#16 := by decide

/-! ### Register arithmetic and logic (vectors 2.3) -/

/-- A1, A39: a load needs no written register. -/
theorem test_ldImm : got (fun t => (t.getV 0, t.getV VF)) (exec (.ldImm 0 5) (under strictCfg (regs []))) =
    some (5#8, 0x55#8) := by decide

/-- A4. -/
theorem test_addImm : got (fun t => (t.getV 0, t.getV VF)) (exec (.addImm 0 1) (regs [(0, 0xFF)])) =
    some (0#8, 0x55#8) := by decide

/-- A7. -/
theorem test_ldReg : got (fun t => (t.getV 1, t.getV 2)) (exec (.ldReg 1 2) (regs [(2, 0x33)])) =
    some (0x33#8, 0x33#8) := by decide

/-- A8. -/
theorem test_orReg : got (fun t => (t.getV 1, t.getV VF)) (exec (.orReg 1 2) (regs [(1, 0x0F), (2, 0xF0)])) =
    some (0xFF#8, 0x55#8) := by decide

/-- A9. -/
theorem test_andReg : got (fun t => (t.getV 1, t.getV VF)) (exec (.andReg 1 2) (regs [(1, 0x3C), (2, 0x0F)])) =
    some (0x0C#8, 0x55#8) := by decide

/-- A10. -/
theorem test_xorReg : got (fun t => (t.getV 1, t.getV VF)) (exec (.xorReg 1 2) (regs [(1, 0x3C), (2, 0x0F)])) =
    some (0x33#8, 0x55#8) := by decide

/-- A12, A16: the old `VF` is the operand. -/
theorem test_addReg : got (fun t => (t.getV 1, t.getV VF)) (exec (.addReg 1 2) (regs [(1, 0xF0), (2, 0x20)])) =
    some (0x10#8, 1#8) ∧
    got (fun t => (t.getV 1, t.getV VF)) (exec (.addReg 1 0xF) (regs [(1, 1), (0xF, 2)])) = some (3#8, 0#8) := by decide

/-- A15: `VF` as destination, under both policies. -/
theorem test_addReg_vf : got (·.getV VF) (exec (.addReg 0xF 2) (regs [(0xF, 0xF0), (2, 0x20)])) = some 1#8 ∧
    got (·.getV VF) (exec (.addReg 0xF 2) (under lastCfg (regs [(0xF, 0xF0), (2, 0x20)]))) = some 0x10#8 := by decide

/-- A17, A19. -/
theorem test_subReg : got (fun t => (t.getV 1, t.getV VF)) (exec (.subReg 1 2) (regs [(1, 3), (2, 10)])) =
    some (0xF9#8, 0#8) ∧
    got (fun t => (t.getV 1, t.getV VF)) (exec (.subReg 1 2) (regs [(1, 5), (2, 5)])) = some (0#8, 1#8) := by decide

/-- A25, A26: `V[x]` is shifted, not `V[y]`. -/
theorem test_shr : got (fun t => (t.getV 1, t.getV VF, t.getV 2)) (exec (.shr 1 2) (regs [(1, 0x80), (2, 0xFF)])) =
    some (0x40#8, 0#8, 0xFF#8) ∧
    got (·.getV VF) (exec (.shr 0xF 0) (under lastCfg (regs [(0xF, 2)]))) = some 1#8 := by decide

/-- A27, A29. -/
theorem test_subnReg : got (fun t => (t.getV 1, t.getV VF)) (exec (.subnReg 1 2) (regs [(1, 3), (2, 10)])) =
    some (7#8, 1#8) ∧
    got (fun t => (t.getV 1, t.getV VF)) (exec (.subnReg 1 2) (regs [(1, 1), (2, 0)])) = some (0xFF#8, 0#8) := by decide

/-- A33, A34. -/
theorem test_shl : got (fun t => (t.getV 1, t.getV VF)) (exec (.shl 1 0) (regs [(1, 0xFF)])) = some (0xFE#8, 1#8) ∧
    got (·.getV VF) (exec (.shl 0xF 0) (regs [(0xF, 0x81)])) = some 1#8 := by decide

/-- A35. -/
theorem test_rnd : got (·.getV 3) (exec (.rnd 3 0x0F) (withInputs (keysDown [] 0xA7 0) State.reset)) = some 7#8 := by decide

/-! ### Address register and memory (vectors 2.4) -/

/-- M2. -/
theorem test_ldI : got (·.i) (exec (.ldI 0xFFF) State.reset) = some 0xFFF#16 := by decide

/-- M4, M5: the carry goes above 12 bits, not above 16. -/
theorem test_addI : got (fun t => (t.i, t.getV VF)) (exec (.addI 2) (mems 0xFFF [(2, 1)] 0 [])) =
    some (0x1000#16, 0x55#8) ∧ got (·.i) (exec (.addI 2) (mems 0xFFFF [(2, 1)] 0 [])) = some 0#16 := by decide

/-- M6, M8: the whole byte is used. -/
theorem test_ldF : got (·.i) (exec (.ldF 0) (regs [(0, 5)])) = some 0x19#16 ∧
    got (·.i) (exec (.ldF 0) (regs [(0, 0xFF)])) = some 0x4FB#16 := by decide

/-- M9. -/
theorem test_ldB : got (fun t => (t.readBytes 0x300 3, t.i)) (exec (.ldB 0) (mems 0x300 [(0, 0xFE)] 0 [])) =
    some ([2#8, 5#8, 4#8], 0x300#16) := by decide

/-- M13, M14: the font region under both policies. -/
theorem test_ldB_font : got (·.halt) (exec (.ldB 0) (mems 0x4E [(0, 123)] 0 [])) =
    some (.faulted ⟨.fontRegionWrite, some 0xF033#16, 0x200#16, some 0x4E⟩) ∧
    got (·.readBytes 0x4E 3) (exec (.ldB 0) (under patchCfg (mems 0x4E [(0, 123)] 0 []))) =
      some [1#8, 2#8, 3#8] := by decide

/-- M17. -/
theorem test_ldMemVx : got (fun t => (t.readBytes 0x400 4, t.i))
    (exec (.ldMemVx 2) (mems 0x400 [(0, 1), (1, 2), (2, 3), (3, 4)] 0 [])) =
      some ([1#8, 2#8, 3#8, 0#8], 0x400#16) := by decide

/-- M20, P4: nothing is stored, and the first failing address is reported. -/
theorem test_ldMemVx_out_of_range : got (fun t => (t.halt, t.readBytes 0xFFE 2))
    (exec (.ldMemVx 2) (mems 0xFFE [(0, 1), (1, 2), (2, 3)] 0 [])) =
      some (.faulted ⟨.memoryOutOfRange, some 0xF255#16, 0x200#16, some 0x1000⟩, [0#8, 0#8]) := by decide

/-- M21, M22. -/
theorem test_ldVxMem : got (fun t => (t.getV 0, t.getV 1, t.getV 2, t.getV 3))
    (exec (.ldVxMem 2) (mems 0x400 [(3, 9)] 0x400 [1, 2, 3, 4])) = some (1#8, 2#8, 3#8, 9#8) ∧
    got (fun t => (t.getV 0, t.getV 1, t.getV 4)) (exec (.ldVxMem 4) State.reset) =
      some (0xF0#8, 0x90#8, 0xF0#8) := by decide

/-- M23: nothing is loaded. -/
theorem test_ldVxMem_out_of_range : got (fun t => (t.halt, t.getV 0)) (exec (.ldVxMem 1) (mems 0xFFF [(0, 0x77)] 0 [])) =
    some (.faulted ⟨.memoryOutOfRange, some 0xF165#16, 0x200#16, some 0x1000⟩, 0x77#8) := by decide

/-! ### Display (vectors 2.5) -/

/-- A display with the pixel at column 0, row 0 set. -/
def corner (s : State) : State := { s with disp := flipPixel s.disp 0 0 }

/-- D1. -/
theorem test_cls : got (fun t => (litRows t, t.dirty, t.getV VF)) (exec .cls (corner (regs []))) =
    some ([], true, 0x55#8) := by decide

/-- D10: a collision in row 0 counts though row 1 has none. -/
theorem test_drw_collision : got (fun t => (row t 0, row t 1, t.getV VF, t.dirty))
    (exec (.drw 1 2 2) (corner (mems 0x300 [(1, 0), (2, 0)] 0x300 [0x80, 0x40]))) = some ([], [1], 1#8, true) := by decide

/-- D3, D5: clipped at the right edge; beyond the edge nothing is drawn. -/
theorem test_drw_clips : got (fun t => (row t 0, litRows t, t.getV VF))
    (exec (.drw 1 2 1) (mems 0x300 [(1, 62), (2, 0)] 0x300 [0xFF])) = some ([62, 63], [0], 0#8) ∧
    got (fun t => (litRows t, t.getV VF, t.dirty)) (exec (.drw 1 2 5) (mems 0 [(1, 64), (2, 0)] 0 [])) =
      some ([], 0#8, false) := by decide

/-! ### Keys and timers (vectors 2.6) -/

/-- K1, K5: the key named by the register; an index above 15. -/
theorem test_skp : got (·.pc) (exec (.skp 4) (withInputs (keysDown [0xA] 0 0) (regs [(4, 0xA)]))) = some 0x204#16 ∧
    got (·.halt) (exec (.skp 4) (regs [(4, 0x10)])) =
      some (.faulted ⟨.keyIndexOutOfRange, some 0xE49E#16, 0x200#16, none⟩) := by decide

/-- K6, on SKP: the low nibble under `mask`. -/
theorem test_skp_mask : got (·.pc) (exec (.skp 4) (under maskCfg (withInputs (keysDown [0] 0 0) (regs [(4, 0x10)])))) =
    some 0x204#16 := by decide

/-- K3, K4. -/
theorem test_sknp : got (·.pc) (exec (.sknp 4) (withInputs (keysDown [] 0 0) (regs [(4, 0xA)]))) = some 0x204#16 ∧
    got (·.pc) (exec (.sknp 4) (withInputs (keysDown [0xA] 0 0) (regs [(4, 0xA)]))) = some 0x202#16 := by decide

/-- K7. -/
theorem test_ldVxDt : got (·.getV 3) (exec (.ldVxDt 3) { State.reset with dt := 0x3C }) = some 0x3C#8 := by decide

/-- K8, K9. -/
theorem test_ldVxK : got (fun t => (t.pc, t.getV 5)) (exec (.ldVxK 5) (withInputs (keysDown [] 0 3) (atPC 0x210))) =
    some (0x210#16, 0#8) ∧
    got (fun t => (t.pc, t.getV 5)) (exec (.ldVxK 5) (withInputs (keysDown [7] 0 3) (atPC 0x210))) =
      some (0x212#16, 7#8) := by decide

/-- K10: either of two keys, by the choice drawn. -/
theorem test_ldVxK_either : got (·.getV 5) (exec (.ldVxK 5) (withInputs (keysDown [3, 9] 0 0) State.reset)) = some 3#8 ∧
    got (·.getV 5) (exec (.ldVxK 5) (withInputs (keysDown [3, 9] 0 1) State.reset)) = some 9#8 := by decide

/-- K11. -/
theorem test_ldDtVx : got (·.dt) (exec (.ldDtVx 2) (regs [(2, 0x3C)])) = some 0x3C#8 := by decide

/-- K12: the tone waits for the frame tick. -/
theorem test_ldStVx : got (fun t => (t.st, t.tone, t.outputs)) (exec (.ldStVx 2) (regs [(2, 5)])) =
    some (5#8, false, []) := by decide

/-- K13, K14. -/
theorem test_frameTick_timers :
    got (fun t => (t.dt, t.st, t.outputs)) (step { State.reset with dt := 2, st := 2, pending := [.frameTick] }) =
      some (1#8, 1#8, [.setTone true]) ∧
    got (fun t => (t.dt, t.st, t.outputs)) (step { State.reset with dt := 0, st := 1, pending := [.frameTick] }) =
      some (0#8, 0#8, [.setTone false]) := by decide

/-- K15, D13: the present comes before the tone, once. -/
theorem test_frameTick_presents :
    got (fun t => (t.dirty, t.outputs))
      (deliverAll [.frameTick, .frameTick] { State.reset with dt := 1, st := 1, dirty := true }) =
      some (false, [.present (blank defaultConfig), .setTone false, .setTone false]) := by decide

/-! ### Load and schedule (vectors 2.8) -/

/-- S10: the ROM, the font and the zero around them. -/
theorem test_load : (load defaultConfig [0x12#8, 0x00#8]).toOption.map
    (fun s => (s.readByte 0x200, s.readByte 0x4F, s.readByte 0x50, s.readByte 0, s.pc)) =
      some (0x12#8, 0x80#8, 0#8, 0xF0#8, 0x200#16) := by decide

/-- L4: at 600 Hz the opcode and frame ticks are both due at the start and again, opcode first, at ten opcode periods. -/
theorem test_schedule_600 :
    dueEvents ⟨0, 0, 0⟩ (keysDown [] 0 0) = [.opcodeTick (keysDown [] 0 0), .frameTick] ∧
    dueEvents (Clock.pass ⟨540, 600, 600⟩ 60) (keysDown [] 0 0) = [.opcodeTick (keysDown [] 0 0), .frameTick] ∧
    dueEvents (Clock.pass ⟨480, 540, 600⟩ 60) (keysDown [] 0 0) = [.opcodeTick (keysDown [] 0 0)] ∧
    (Clock.pass ⟨540, 600, 600⟩ 60).advance defaultConfig 600 = ⟨600, 660, 1200⟩ := by decide

/-! ### Witnesses: for every statement with hypotheses, states and operands that meet them together, one clause at a time -/

/-- A tick's inputs with keys 0 and 15 down. -/
def someInputs : Inputs := keysDown [0, 0xF] 0xA7 1

/-- A state under `unwritten_faults` in which every register has been written. -/
def allWritten : State :=
  under strictCfg { State.reset with written := { v := Vector.replicate 16 true, i := true, dt := true, st := true } }

/-- The parts of every register but two in a row can be read, whatever the policy. -/
theorem witness_readable_both_policies :
    State.reset.readable [.v 0, .v 0xF, .i, .dt] = true ∧ allWritten.readable [.v 0, .v 0xF, .i, .dt] = true ∧
      allWritten.readable (reads (.ldMemVx 0xF)) = true ∧ State.reset.readable (reads (.ldMemVx 0xF)) = true := by decide

theorem witness_DecodeOfEncodeIsInstruction :
    (Instr.sys 0xFFF#12).wellFormed = true ∧ (Instr.shl 0xF#4 0xF#4).wellFormed = true := by decide

theorem witness_EncodeOfDecodeIsWord : decodeWord 0x0000#16 = .ok (.sys 0) ∧ decodeWord 0xFF65#16 = .ok (.ldVxMem 0xF) := by
  decide

theorem witness_DecoderRefusesExactlyIllegalWords :
    Illegal 0x5001#16 ∧ Illegal 0x800F#16 ∧ Illegal 0x9FFF#16 ∧ Illegal 0xEFFF#16 ∧ Illegal 0xF000#16 ∧
      ¬Illegal 0x5FF0#16 ∧ ¬Illegal 0x800E#16 ∧ ¬Illegal 0x9FF0#16 ∧ ¬Illegal 0xEF9E#16 ∧ ¬Illegal 0xFF65#16 := by
  unfold Illegal
  refine ⟨?_, ?_, ?_, ?_, ?_, ?_, ?_, ?_, ?_, ?_⟩ <;> decide

/-- Both ways an opcode tick starts: from the queue, and with free inputs. -/
theorem witness_StartsOpcode :
    StartsOpcode { State.reset with pending := [.opcodeTick someInputs] } { State.reset with sample := some someInputs } ∧
      StartsOpcode State.reset State.reset.drawn :=
  ⟨⟨rfl, .inr ⟨someInputs, [], rfl, rfl⟩⟩, ⟨rfl, .inl ⟨rfl, rfl⟩⟩⟩

/-- The last word of memory, and an odd one under `fetch`. -/
theorem witness_StepRunsDecodedInstruction :
    (StartsOpcode (atPC 0xFFE) (atPC 0xFFE).drawn ∧ Fetchable (atPC 0xFFE).drawn ∧
      decode [(atPC 0xFFE).drawn.readByte 0xFFE, (atPC 0xFFE).drawn.readByte 0xFFF] = .ok (.sys 0, [])) ∧
    (StartsOpcode (under oddCfg (atPC 0xFFD)) (under oddCfg (atPC 0xFFD)).drawn ∧
      Fetchable (under oddCfg (atPC 0xFFD)).drawn) :=
  ⟨⟨⟨rfl, .inl ⟨rfl, rfl⟩⟩, by unfold Fetchable; decide, by decide⟩, ⟨rfl, .inl ⟨rfl, rfl⟩⟩, by unfold Fetchable; decide⟩

/-- The three clauses: an odd `PC`, the first byte past memory, the last byte of memory. -/
theorem witness_FailedFetchTakesItsFault :
    (StartsOpcode (atPC 0x1001) (atPC 0x1001).drawn ∧ (atPC 0x1001).drawn.pc.toNat % 2 = 1 ∧
      (atPC 0x1001).drawn.cfg.oddPc = .fault) ∧
    (StartsOpcode (atPC 0x1000) (atPC 0x1000).drawn ∧ (atPC 0x1000).drawn.pc.toNat % 2 = 0 ∧
      (atPC 0x1000).drawn.cfg.memSize ≤ (atPC 0x1000).drawn.pc.toNat) ∧
    (StartsOpcode (under oddCfg (atPC 0xFFF)) (under oddCfg (atPC 0xFFF)).drawn ∧
      (under oddCfg (atPC 0xFFF)).drawn.cfg.oddPc = .fetch ∧
      (under oddCfg (atPC 0xFFF)).drawn.cfg.memSize = (under oddCfg (atPC 0xFFF)).drawn.pc.toNat + 1) :=
  ⟨⟨⟨rfl, .inl ⟨rfl, rfl⟩⟩, by decide, by decide⟩, ⟨⟨rfl, .inl ⟨rfl, rfl⟩⟩, by decide, by decide⟩,
    ⟨rfl, .inl ⟨rfl, rfl⟩⟩, by decide, by decide⟩

theorem witness_IllegalWordTakesUnknownOpcode :
    StartsOpcode (State.reset.placeWord 0xFFFF) (State.reset.placeWord 0xFFFF).drawn ∧
      Fetchable (State.reset.placeWord 0xFFFF).drawn ∧
      (0xFFFF#16).toNat = ((State.reset.placeWord 0xFFFF).drawn.readByte 0x200).toNat * 256 +
        ((State.reset.placeWord 0xFFFF).drawn.readByte 0x201).toNat ∧ Illegal 0xFFFF#16 :=
  ⟨⟨rfl, .inl ⟨rfl, rfl⟩⟩, by unfold Fetchable; decide, by decide, by unfold Illegal; decide⟩

/-- One instruction that faults and one that does not. -/
theorem witness_FaultsArePrecise :
    (∃ t, exec (.sys 0) State.reset = .next t ∧ t.halt ≠ .running) ∧
      ∃ t, exec .cls State.reset = .next t ∧ t.halt = .running := by
  exact ⟨⟨_, rfl, by decide⟩, ⟨_, rfl, by decide⟩⟩

theorem witness_BlockStepsExactlyWhileRunning :
    State.reset.halt = .running ∧ State.reset.quitNow.halt ≠ .running ∧
      (State.reset.enterFault none ⟨.memoryOutOfRange, some 0⟩).halt ≠ .running := by decide

theorem witness_QuitOnlyStopsTheBlock :
    { State.reset with pending := [.quit] }.halt = .running ∧ { State.reset with pending := [.quit] }.pending = [.quit] := by
  decide

/-- Both clauses: an unwritten register, and a fault of another kind under the default policy. -/
theorem witness_UnwrittenReadsAreCaught :
    ((under strictCfg State.reset).cfg.resetReg = .unwrittenFaults ∧
      ∃ r ∈ reads (.ldMemVx 0xF), (under strictCfg State.reset).isWritten r = false) ∧
    (State.reset.cfg.resetReg = .zero ∧ State.reset.halt = .running ∧
      ∃ t r, exec (.sys 0) State.reset = .next t ∧ t.halt = .faulted r) :=
  ⟨⟨rfl, .v 0xF, by decide, by decide⟩, rfl, rfl, _, _, rfl, rfl⟩

theorem witness_ReturnPopsOrGoesOn :
    { State.reset with stack := [0x202] }.stack = [] ++ [0x202#16] ∧ State.reset.stack = [] := by decide

/-- The lowest and the highest native call, and the neighbours of clear screen and return. -/
theorem witness_NativeCallTakesItsFault :
    ∀ nnn ∈ [0x000#12, 0x0DF#12, 0x0E1#12, 0x0ED#12, 0x0EF#12, 0xFFF#12], (Instr.sys nnn).wellFormed = true := by decide

/-- Both clauses, at the last free entry and at none. -/
theorem witness_CallPushesOrOverflows :
    { State.reset with stack := List.replicate 15 0#16 }.stack.length ≠ State.reset.cfg.stackDepth ∧
      { State.reset with stack := List.replicate 16 0#16 }.stack.length = State.reset.cfg.stackDepth := by decide

theorem witness_CallThenReturnGoesOnAfterCall :
    { State.reset with stack := List.replicate 15 0#16 }.stack.length ≠ State.reset.cfg.stackDepth := by decide

theorem witness_ImmediateSkipsCompare : allWritten.readable [.v 0xF] = true := by decide

theorem witness_RegisterSkipsCompare : allWritten.readable [.v 0, .v 0xF] = true := by decide

theorem witness_IndexedJumpAddsV0 : ((under strictCfg State.reset).setV 0 0xFF).readable [.v 0#4] = true := by decide

theorem witness_LoadAddMoveWriteOneRegister :
    allWritten.readable [.v 0xF] = true ∧ ((under strictCfg State.reset).setV 3 1).readable [.v 3] = true := by decide

theorem witness_LogicWritesOneRegister : allWritten.readable [.v 0xF, .v 0] = true := by decide

/-- Both policies of `VF` as the destination. -/
theorem witness_AddGivesSumAndCarry :
    allWritten.readable [.v 0xF, .v 0] = true ∧ allWritten.cfg.vfDest = .flagLast ∧
      (under lastCfg State.reset).readable [.v 0xF, .v 0xF] = true ∧ (under lastCfg State.reset).cfg.vfDest = .resultLast := by
  decide

theorem witness_SubtractionsGiveDifferenceAndNoBorrow :
    allWritten.readable [.v 0, .v 0xF] = true ∧ (under lastCfg State.reset).readable [.v 0xF, .v 0] = true := by decide

theorem witness_ShiftsGiveResultAndBitShiftedOut :
    allWritten.readable [.v 0] = true ∧ (under lastCfg State.reset).readable [.v 0xF] = true := by decide

theorem witness_RandomLoadIsMasked : (withInputs someInputs State.reset).sample = some someInputs := by decide

theorem witness_AddressRegisterWrites : allWritten.readable [.v 0xF, .i] = true ∧ allWritten.readable [.v 0] = true := by decide

/-- Between the font and the end of memory every byte may be stored. -/
theorem storable_between (a m : Nat) (h1 : 0x50 ≤ a) (h2 : a + m ≤ 0x1000) : ∀ k, k < m → Storable strictCfg (a + k) :=
  fun k hk => ⟨show a + k < 0x1000 by omega, .inr (fun h => absurd (show a + k < 0x50 from h.2) (by omega))⟩

/-- A store of three bytes at the end of memory, and right after the font. -/
theorem witness_BcdStoreWritesDigits :
    allWritten.readable [.v 0xF, .i] = true ∧ Memory.wf allWritten.cfg allWritten.mem ∧
      (∀ k, k < 3 → Storable strictCfg (0xFFD + k)) ∧ ∀ k, k < 3 → Storable strictCfg (0x50 + k) :=
  ⟨by decide, by decide, storable_between _ _ (by decide) (by decide), storable_between _ _ (by decide) (by decide)⟩

/-- A dump of all registers to the end of memory, and one right after the font. -/
theorem witness_RegisterDumpStoresRegisters :
    allWritten.readable (reads (.ldMemVx 0xF)) = true ∧ Memory.wf allWritten.cfg allWritten.mem ∧
      (∀ k, k < 16 → Storable strictCfg (0xFF0 + k)) ∧ ∀ k, k < 16 → Storable strictCfg (0x50 + k) :=
  ⟨by decide, by decide, storable_between _ _ (by decide) (by decide), storable_between _ _ (by decide) (by decide)⟩

theorem witness_RegisterLoadReadsMemory :
    (allWritten.setI 0xFF0).readable [.i] = true ∧ (allWritten.setI 0xFF0).i.toNat + 15 < defaultConfig.memSize := by decide

/-- The last byte of a transfer fails: past the end of memory, and at the first byte of a font that follows the program. -/
theorem witness_FailedStoreReportsFirstAddress :
    ((allWritten.setI 0xFFE).readable (reads (.ldB 0)) = true ∧ (∀ j, j < 2 → Storable defaultConfig (0xFFE + j)) ∧
      defaultConfig.memSize ≤ 0xFFE + 2) ∧
    ((allWritten.setI 0x4F).readable (reads (.ldMemVx 0)) = true ∧ 0x4F < defaultConfig.memSize ∧
      ¬Storable defaultConfig 0x4F) ∧
    ((∀ j, j < 15 → Storable { defaultConfig with fontBase := 0x800 } (0x7F1 + j)) ∧
      ¬Storable { defaultConfig with fontBase := 0x800 } (0x7F1 + 15)) := by
  unfold Storable; decide

theorem witness_FailedLoadReportsFirstAddress :
    (allWritten.setI 0xFF1).readable (reads (.ldVxMem 0xF)) = true ∧ (allWritten.setI 0xFF1).readable (reads (.drw 0 1 0xF)) = true ∧
      (∀ j, j < 15 → 0xFF1 + j < defaultConfig.memSize) ∧ defaultConfig.memSize ≤ 0xFF1 + 15 ∧
      (∀ j, j < 14 → 0xFF2 + j < defaultConfig.memSize) ∧ defaultConfig.memSize ≤ 0xFF2 + 14 := by decide

/-- The later state is the one the dump leaves, its registers changed. -/
theorem witness_DumpThenLoadRestores :
    ((allWritten.setI 0xFF0).readable (reads (.ldMemVx 0xF)) = true ∧ Memory.wf allWritten.cfg allWritten.mem ∧
      ∀ k, k < 16 → Storable strictCfg (0xFF0 + k)) ∧
    ∃ t, exec (.ldMemVx 0xF) (allWritten.setI 0xFF0) = .next t ∧ (t.setV 0 1).cfg = t.cfg ∧ (t.setV 0 1).mem = t.mem ∧
      (t.setV 0 1).i = t.i ∧ (t.setV 0 1).readable [.i] = true := by
  exact ⟨⟨by decide, by decide, storable_between _ _ (by decide) (by decide)⟩, _, rfl, rfl, rfl, rfl, by decide⟩

theorem witness_StoreIsSeenByNextFetch :
    (allWritten.setI 0x202).readable (reads (.ldMemVx 1)) = true ∧ Memory.wf allWritten.cfg allWritten.mem ∧
      (∀ k, k ≤ 1 → Storable defaultConfig (0x202 + k)) ∧ (allWritten.setI 0x202).i = (allWritten.setI 0x202).pc + 2#16 := by
  unfold Storable; decide

/-- A sprite of one set byte at the end of memory, drawn at the last column and row. -/
def edgeSprite : State := ((((allWritten.setV 1 63).setV 2 31).setI 0xFFF)).storeBytes 0xFFF [0x80]

/-- The hypotheses, a pixel the sprite sets that is clear, and, with the pixel set, a collision. -/
theorem witness_DrawInvertsSpritePixels :
    (edgeSprite.readable [.v 1, .v 2, .i] = true ∧ (∀ k, k < 1 → edgeSprite.i.toNat + k < edgeSprite.cfg.memSize) ∧
      dispWf edgeSprite.cfg edgeSprite.disp ∧ SpriteSets edgeSprite 63 31 1 63 31 ∧ pixel edgeSprite.disp 63 31 = false) ∧
    (dispWf edgeSprite.cfg (flipPixel edgeSprite.disp 63 31) ∧ pixel (flipPixel edgeSprite.disp 63 31) 63 31 = true) := by
  unfold SpriteSets; decide

theorem witness_DrawTwiceRestoresDisplay :
    (1#4 ≠ VF ∧ 2#4 ≠ VF ∧ edgeSprite.readable [.v 1, .v 2, .i] = true) ∧
      (∀ k, k < 1 → edgeSprite.i.toNat + k < edgeSprite.cfg.memSize) ∧ dispWf edgeSprite.cfg edgeSprite.disp := by decide

/-- Both clauses at the bounds of the index: 15, 16 under `mask`, and 16 under `fault`. -/
theorem witness_KeySkipsTestSampledKey :
    ((allWritten.setV 4 15).readable [.v 4] = true ∧ ((allWritten.setV 4 15).getV 4).toNat < 16 ∧
      (withInputs someInputs (allWritten.setV 4 15)).sample = some someInputs) ∧
    ((under maskCfg (regs [(4, 16)])).readable [.v 4] = true ∧ (under maskCfg (regs [(4, 16)])).cfg.keyIndex = .mask) ∧
    ((allWritten.setV 4 16).readable [.v 4] = true ∧ 16 ≤ ((allWritten.setV 4 16).getV 4).toNat ∧
      allWritten.cfg.keyIndex = .fault) := by decide

/-- Both clauses: no key down, and the last key down. -/
theorem witness_KeyWaitRepeatsOrTakesKey :
    (withInputs (keysDown [] 0 0) State.reset).sample = some (keysDown [] 0 0) ∧
      (∀ k : Nibble, (keysDown [] 0 0).keys[k.toNat]'k.isLt = false) ∧
      (keysDown [0xF] 0 0).keys[(0xF#4).toNat]'(by decide) = true := by decide

theorem witness_DelayTimerTransfers :
    ((under strictCfg State.reset).setDT 1).readable [.dt] = true ∧ allWritten.readable [.v 0xF] = true := by decide

theorem witness_SoundTimerIsSet : (allWritten.setV 0 1).readable [.v 0] = true ∧ (allWritten.setV 0 1).getV 0 = 1#8 := by decide

/-- A block whose next event is a frame tick, its display clean or dirty. -/
def beforeFrame (dirty : Bool) : State := { State.reset with st := 1, dirty := dirty, pending := [.frameTick] }

theorem witness_FrameTickCountsDownAndSetsTone :
    (beforeFrame false).halt = .running ∧ (beforeFrame false).pending = .frameTick :: [] := by decide

theorem witness_FrameTickPresentsDirtyDisplay :
    ((beforeFrame true).halt = .running ∧ (beforeFrame true).pending = .frameTick :: [] ∧ (beforeFrame true).dirty = true) ∧
      (beforeFrame false).dirty = false := by decide

/-- A run of an opcode tick and a frame tick that meets neither timer instruction. -/
theorem witness_TimersSaturateAtZero :
    ∃ t, deliverAll [.opcodeTick someInputs, .frameTick] (State.reset.placeWord 0x1200) = .next t ∧ t.halt = .running ∧
      RunAvoids (fun i => ∃ x, i = .ldDtVx x) [.opcodeTick someInputs, .frameTick] (State.reset.placeWord 0x1200) ∧
      RunAvoids (fun i => ∃ x, i = .ldStVx x) [.opcodeTick someInputs, .frameTick] (State.reset.placeWord 0x1200) := by
  have hd : decodeWord (State.reset.placeWord 0x1200).fetchWord = .ok (.jp 0x200) := by decide
  refine ⟨_, rfl, by decide, ?_, ?_⟩ <;>
  · refine ⟨fun _ i hi => ?_, fun t _ => ⟨fun h => by simp [Event.isOpcodeTick] at h, fun _ _ => trivial⟩⟩
    rw [hd] at hi
    cases hi
    simp

/-- The two ticks in turn: a fair sequence, and a run of it that is still running. -/
def inTurn (n : Nat) : Event := if n % 2 = 0 then .frameTick else .opcodeTick someInputs

theorem witness_FairRunCountsDelayTimerToZero :
    Fair inTurn ∧ ∃ t, deliverAll ((List.range 1).map inTurn) State.reset = .next t ∧ t.halt = .running ∧
      RunAvoids (fun i => ∃ x, i = .ldDtVx x) ((List.range 1).map inTurn) State.reset := by
  refine ⟨⟨fun n => ⟨2 * n + 1, by omega, ?_⟩, fun n => ⟨2 * n, by omega, ?_⟩⟩, _, rfl, by decide,
    fun h => by simp [inTurn, Event.isOpcodeTick] at h, fun _ _ => trivial⟩
  · rw [inTurn, if_neg (by omega)]; rfl
  · rw [inTurn, if_pos (by omega)]

/-- The largest ROM, the smallest that fails, and the bounds of the font region and of a ROM of two bytes. -/
theorem witness_LoadPlacesRomAndFont :
    defaultConfig.Wf ∧ (List.replicate 3584 0#8).length ≤ defaultConfig.programEnd - defaultConfig.progOrigin ∧
      defaultConfig.programEnd - defaultConfig.progOrigin < (List.replicate 3585 0#8).length ∧
      (0x4F < defaultConfig.progOrigin ∧ 0x4F < defaultConfig.fontBase + 16 * defaultConfig.glyphBytes) ∧
      ¬0x50 < defaultConfig.fontBase + 16 * defaultConfig.glyphBytes ∧ defaultConfig.progOrigin + 2 ≤ 0x202 := by
  refine ⟨by decide, ?_, ?_, by decide, by decide, by decide⟩ <;> rw [List.length_replicate] <;> decide

/-- Both ticks just due, and neither yet. -/
theorem witness_IterationIsARunOfDueEvents :
    State.reset.halt = .running ∧ State.reset.clock.opcodeDue ≤ State.reset.clock.elapsed + 0 ∧
      State.reset.clock.frameDue ≤ State.reset.clock.elapsed + 0 ∧
      { State.reset with clock := ⟨5, 7, 7⟩ }.halt = .running ∧ ¬(7 ≤ 5 + 1) := by decide

theorem witness_RestPersists : AtRest (State.reset.placeWord 0x1200) := by
  unfold AtRest Fetchable; decide

/-- An opcode tick and a frame tick from states that meet the invariant. -/
theorem witness_StepKeepsInvariant :
    (BlockInv (State.reset.placeWord 0xF055) ∧ ∃ t, step (State.reset.placeWord 0xF055) = .next t) ∧
      BlockInv (beforeFrame true) ∧ ∃ t, step (beforeFrame true) = .next t :=
  ⟨⟨by decide, _, rfl⟩, by decide, _, rfl⟩

/-- A store into the font, at its last byte. -/
theorem witness_FontIsNeverOverwritten :
    ((State.reset.setI 0x4F).placeWord 0xF055).cfg.fontWrite = .fault ∧
      (∃ t, step ((State.reset.setI 0x4F).placeWord 0xF055) = .next t) ∧
      State.reset.cfg.fontBase ≤ 0x4F ∧ 0x4F < State.reset.cfg.fontBase + 16 * State.reset.cfg.glyphBytes :=
  ⟨rfl, next_of_got (by decide), by decide, by decide⟩

/-- A state with a return address whose next instruction is a call. -/
def nestedCall : State := { State.reset.placeWord 0x2300 with stack := [0x206] }

theorem witness_ReturnAddressesStayEven :
    nestedCall.cfg.oddPc = .fault ∧ (∀ a ∈ nestedCall.stack, a.toNat % 2 = 0) ∧
      got (·.stack) (step nestedCall) = some [0x206, 0x202] :=
  ⟨rfl, fun a h => by rw [show a = 0x206#16 from List.mem_singleton.1 h]; rfl, by decide⟩

theorem witness_ParametersNeverChange : ∃ t, step State.reset = .next t := ⟨_, rfl⟩

theorem witness_OnlyCallPushesAndReturnPops :
    (∃ t, exec (.call 0x300) State.reset = .next t ∧ t.stack = [0x202]) ∧
      ∃ t, exec .ret { State.reset with stack := [0x202] } = .next t ∧ t.stack = [] :=
  ⟨⟨_, rfl, by decide⟩, _, rfl, by decide⟩

theorem witness_OnlyThreeInstructionsChangeI : ∃ t, exec (.ldI 0x300) State.reset = .next t ∧ t.i ≠ State.reset.i :=
  ⟨_, rfl, by decide⟩

/-- The last byte of each of the two stores. -/
theorem witness_OnlyStoresChangeMemory :
    (∃ t, exec (.ldB 0) (mems 0x300 [(0, 1)] 0 []) = .next t ∧ t.readByte 0x302 ≠ (mems 0x300 [(0, 1)] 0 []).readByte 0x302) ∧
      ∃ t, exec (.ldMemVx 1) (mems 0x300 [(1, 1)] 0 []) = .next t ∧
        t.readByte 0x301 ≠ (mems 0x300 [(1, 1)] 0 []).readByte 0x301 :=
  ⟨⟨_, rfl, by decide⟩, _, rfl, by decide⟩

theorem witness_OnlyClearAndDrawTouchDisplay :
    (∃ t, exec (.drw 1 2 1) edgeSprite = .next t ∧ t.disp ≠ edgeSprite.disp) ∧
      ∃ t, exec .ret (beforeFrame true) = .next t ∧ (beforeFrame true).dirty = true :=
  ⟨⟨_, rfl, by decide⟩, _, rfl, by decide⟩

/-- A flag-writing instruction changes both its destination and `VF`. -/
theorem witness_OnlyNamedRegistersChange :
    ∃ t, exec (.addReg 1 2) (regs [(1, 0xF0), (2, 0x20)]) = .next t ∧
      t.getV 1 ≠ (regs [(1, 0xF0), (2, 0x20)]).getV 1 ∧ t.getV VF ≠ (regs [(1, 0xF0), (2, 0x20)]).getV VF :=
  ⟨_, rfl, by decide, by decide⟩

theorem witness_SoundStateIsNotReadable :
    (∃ t, exec (.ldVxDt 0) State.reset = .next t) ∧ ∀ x, Instr.ldVxDt 0 ≠ .ldStVx x :=
  ⟨⟨_, rfl⟩, fun _ => nofun⟩

end Sys2Proof.Tests
end

section
/-! SUPPORT. No step writes the parameters (00_scope.md R9, R10): said of the effect of every instruction, then of an opcode
tick, and so of every step. -/

namespace Sys2Proof.Machine

@[simp] theorem State.takeKey_cfg (s : State) (x : Nibble) (k : Option Nibble) : (s.takeKey x k).cfg = s.cfg := by
  cases k <;> rfl

@[simp] theorem State.frameTick_cfg (s : State) : s.frameTick.cfg = s.cfg := keeps_frameTick s .cfg (by simp)

/-- The effect of an instruction is made of updates none of which writes the parameters. -/
@[simp] theorem effectOf_cfg (i : Instr) (s : State) : (effectOf i s).cfg = s.cfg := by
  cases i <;> simp [effectOf]

/-- Sampling the inputs of an opcode tick leaves the parameters (R230). -/
theorem StartsOpcode.cfg_eq {s s' : State} (h : StartsOpcode s s') : s'.cfg = s.cfg := by
  obtain ⟨-, ⟨-, rfl⟩ | ⟨inp, rest, -, rfl⟩⟩ := h <;> rfl

/-- An opcode tick leaves the parameters, whether it faults or has an instruction's effect. -/
theorem runOpcode_cfg {s t : State} (h : runOpcode s = .next t) : t.cfg = s.cfg := by
  obtain ⟨w, r, rfl⟩ | ⟨i, -, -, -, rfl⟩ := runOpcode_cases h
  · exact s.enterFault_cfg w r
  · exact effectOf_cfg i s

/-- Settles O54, by the three kinds of step: an opcode tick, a frame tick and a quit. -/
theorem parametersNeverChange : Obligations.ParametersNeverChange := by
  intro s t h
  obtain ⟨-, ⟨s', hs, hrun⟩ | ⟨rest, -, rfl⟩ | ⟨rest, -, rfl⟩⟩ := step_cases h
  · exact (runOpcode_cfg hrun).trans hs.cfg_eq
  · exact State.frameTick_cfg _
  · exact State.quitNow_cfg _

end Sys2Proof.Machine
end

section
/-! SUPPORT. The frame of every instruction, said once: the parts of the state its effect changes, that it keeps every other
part, and which instructions change which part (10_state.md). -/

namespace Sys2Proof.Machine

/-- The parts of the state an instruction's effect may change (10_state.md R21 to R31; 20_memory.md R59 for the bytes). -/
def changes (i : Instr) (s : State) : List Part :=
  match i with
  | .sys _ => []
  | .jp _ | .jpV0 _ | .seImm _ _ | .sneImm _ _ | .seReg _ _ | .sneReg _ _ | .skp _ | .sknp _ => [.pc]
  | .call _ | .ret => [.pc, .stack]
  | .cls => [.pc, .disp, .dirty]
  | .drw _ _ _ => [.pc, .disp, .dirty] ++ vParts VF
  | .ldImm x _ | .addImm x _ | .ldReg x _ | .orReg x _ | .andReg x _ | .xorReg x _ => .pc :: vParts x
  | .rnd x _ | .ldVxDt x | .ldVxK x => .pc :: vParts x
  | .addReg x _ | .subReg x _ | .shr x _ | .subnReg x _ | .shl x _ => .pc :: (vParts x ++ vParts VF)
  | .ldI _ | .addI _ | .ldF _ => [.pc, .i, .written .i]
  | .ldDtVx _ => [.pc, .dt, .written .dt]
  | .ldStVx _ => [.pc, .st, .written .st]
  | .ldB _ => .pc :: byteParts s.base 3
  | .ldMemVx x => .pc :: byteParts s.base (regCount x)
  | .ldVxMem x => .pc :: vPartsUpTo x

theorem keeps_takeKey (s : State) (x : Nibble) (k : Option Nibble) : Keeps (.pc :: vParts x) s (s.takeKey x k) := by
  cases k with
  | none => exact (keeps_setPC s _).mono (by simp)
  | some k => exact (keeps_setV s x _).mono (by simp +contextual)

/-- A register load from number 0 changes registers `0 .. x`, as many as the bytes it reads (R147). -/
theorem keeps_setVFrom_zero (s : State) (x : Nibble) (bs : List Byte) (h : bs.length = x.toNat + 1) :
    Keeps (vPartsUpTo x) s (s.setVFrom 0 bs) := by
  have := keeps_setVFrom s 0 bs
  simpa only [h, Nat.zero_add, vPartsUpTo] using this

/-- Every instruction's effect keeps all the parts it is not said to change. -/
theorem keeps_effectOf (i : Instr) (s : State) : Keeps (changes i s) s (effectOf i s) := by
  have hpc := keeps_advance s
  match i with
  | .sys _ => exact Keeps.refl s
  | .jp _ | .jpV0 _ => exact hpc.trans_same (keeps_setPC _ _)
  | .seImm _ _ | .sneImm _ _ | .seReg _ _ | .sneReg _ _ | .skp _ | .sknp _ => exact hpc.trans_same (keeps_skipIf _ _)
  | .call _ => exact ((hpc.trans (keeps_pushPC _)).trans (keeps_setPC _ _)).mono (by simp [changes])
  | .ret => exact (hpc.trans (keeps_popPC _)).mono (by simp [changes])
  | .cls => exact (hpc.trans (keeps_setDisp _ _)).trans (keeps_markDirty _ _)
  | .drw _ _ _ => exact ((hpc.trans (keeps_setDisp _ _)).trans (keeps_markDirty _ _)).trans (keeps_setV _ _ _)
  | .ldImm _ _ | .addImm _ _ | .ldReg _ _ | .orReg _ _ | .andReg _ _ | .xorReg _ _ | .rnd _ _ | .ldVxDt _ =>
    exact hpc.trans (keeps_setV _ _ _)
  | .ldVxK x => exact (hpc.trans (keeps_takeKey _ x _)).mono (by simp [changes])
  | .addReg _ _ | .subReg _ _ | .shr _ _ | .subnReg _ _ | .shl _ _ => exact hpc.trans (keeps_setFlagged _ _ _)
  | .ldI _ | .addI _ | .ldF _ => exact hpc.trans (keeps_setI _ _)
  | .ldDtVx _ => exact hpc.trans (keeps_setDT _ _)
  | .ldStVx _ => exact hpc.trans (keeps_setST _ _)
  | .ldB x => exact hpc.trans (keeps_storeBytes _ _ (bcdDigits (s.getV x)))
  | .ldMemVx x =>
    have hlen : (s.firstV x).length = regCount x := by simp [State.firstV]
    exact hpc.trans (hlen ▸ keeps_storeBytes _ _ (s.firstV x))
  | .ldVxMem x => exact hpc.trans (keeps_setVFrom_zero _ x _ (by simp [State.readBytes, regCount]))

/-- An instruction changes the parts of its effect, or those of a fault; no others. -/
theorem exec_changed {i : Instr} {s t : State} (h : exec i s = .next t) {p : Part} (hp : ¬p.same s t) :
    p ∈ changes i s ∨ p = .halt ∨ p = .outputs := by
  obtain ⟨r, -, rfl⟩ | ⟨-, rfl⟩ := exec_cases h
  · by_contra hnot
    exact hp (keeps_enterFault s _ r p (by simpa using fun h' => hnot (.inr h')))
  · by_contra hnot
    exact hp (keeps_effectOf i s p fun h' => hnot (.inl h'))

/-! ### Which instructions change a part -/

@[simp] theorem mem_byteParts (p : Part) (a m : Nat) : p ∈ byteParts a m ↔ ∃ k, k < m ∧ .byte (a + k) = p := by
  simp [byteParts]

@[simp] theorem mem_vParts (p : Part) (x : Nibble) : p ∈ vParts x ↔ p = .v x ∨ p = .written (.v x) := by
  simp [vParts]

@[simp] theorem mem_vPartsUpTo (p : Part) (x : Nibble) :
    p ∈ vPartsUpTo x ↔ ∃ k, k < x.toNat + 1 ∧ (p = .v (BitVec.ofNat 4 k) ∨ p = .written (.v (BitVec.ofNat 4 k))) := by
  simp [vPartsUpTo]

theorem stack_mem_changes_iff (i : Instr) (s : State) : .stack ∈ changes i s ↔ (∃ nnn, i = .call nnn) ∨ i = .ret := by
  cases i <;> simp [changes]

theorem i_mem_changes_iff (i : Instr) (s : State) : .i ∈ changes i s ↔
    (∃ nnn, i = .ldI nnn) ∨ (∃ x, i = .addI x) ∨ ∃ x, i = .ldF x := by
  cases i <;> simp [changes]

theorem disp_mem_changes_iff (i : Instr) (s : State) : .disp ∈ changes i s ↔ i = .cls ∨ ∃ x y n, i = .drw x y n := by
  cases i <;> simp [changes]

theorem dirty_mem_changes_iff (i : Instr) (s : State) : .dirty ∈ changes i s ↔ i = .cls ∨ ∃ x y n, i = .drw x y n := by
  cases i <;> simp [changes]

theorem st_mem_changes_iff (i : Instr) (s : State) : .st ∈ changes i s ↔ ∃ x, i = .ldStVx x := by
  cases i <;> simp [changes]

theorem tone_not_mem_changes (i : Instr) (s : State) : .tone ∉ changes i s := by
  cases i <;> simp [changes]

/-- The registers among the parts an instruction changes are those it writes (R21, R22). -/
theorem v_mem_changes_iff (i : Instr) (s : State) (r : Nibble) : .v r ∈ changes i s ↔ r ∈ writes i := by
  cases i with
  | ldVxMem x => simp [changes, writes, eq_comm]
  | _ => simp [changes, writes]

end Sys2Proof.Machine
end

section
/-! SUPPORT. The invariant of the block (10_state.md R27, R30; 20_memory.md R50): reset meets it, and every step keeps it. -/

namespace Sys2Proof.Machine

/-- The invariant speaks of the parameters, the memory, the stack and the display only. -/
theorem BlockInv.of_same {s t : State} (h : BlockInv s) (hcfg : t.cfg = s.cfg) (hmem : t.mem = s.mem)
    (hstack : t.stack = s.stack) (hdisp : t.disp = s.disp) : BlockInv t := by
  unfold BlockInv
  rwa [hcfg, hmem, hstack, hdisp]

/-! ### What an instruction's effect does to each part of the invariant -/

@[simp] theorem State.takeKey_mem (s : State) (x : Nibble) (k : Option Nibble) : (s.takeKey x k).mem = s.mem := by
  cases k <;> rfl

/-- An instruction's effect leaves the memory as it was or stores bytes at consecutive addresses (R59). -/
theorem effectOf_mem (i : Instr) (s : State) :
    (effectOf i s).mem = s.mem ∨ ∃ a bs, (effectOf i s).mem = Memory.setMany s.cfg s.mem a bs := by
  cases i with
  | ldB x => exact .inr ⟨_, _, rfl⟩
  | ldMemVx x => exact .inr ⟨_, _, rfl⟩
  | _ => exact .inl (by simp [effectOf])

theorem effectOf_mem_wf (i : Instr) {s : State} (h : Memory.wf s.cfg s.mem) : Memory.wf s.cfg (effectOf i s).mem := by
  obtain hmem | ⟨a, bs, hmem⟩ := effectOf_mem i s
  · rwa [hmem]
  · rw [hmem]; exact Memory.setMany_wf _ _ _ _ h

/-- A return leaves an empty stack alone and takes the top entry off any other (R101). -/
theorem State.popPC_stack_cases (s : State) : s.popPC.stack = s.stack ∨ ∃ a, s.stack = s.popPC.stack ++ [a] := by
  obtain hnil | ⟨l, a, hpush⟩ := s.stack.eq_nil_or_concat
  · rw [s.popPC_empty hnil]; exact .inl rfl
  · exact .inr ⟨a, by rw [s.popPC_push l a (by simpa using hpush)]; simpa using hpush⟩

/-- What an instruction's effect does to the stack (R27). -/
theorem effectOf_stack_cases (i : Instr) (s : State) :
    (effectOf i s).stack = s.stack ∨ (∃ nnn, i = .call nnn ∧ (effectOf i s).stack = s.stack ++ [s.pc + 2#16]) ∨
      (i = .ret ∧ ∃ a, s.stack = (effectOf i s).stack ++ [a]) := by
  by_cases hp : .stack ∈ changes i s
  · obtain ⟨nnn, rfl⟩ | rfl := (stack_mem_changes_iff i s).1 hp
    · exact .inr (.inl ⟨nnn, rfl, rfl⟩)
    · exact s.advance.popPC_stack_cases.imp id fun hpop => .inr ⟨rfl, hpop⟩
  · exact .inl (keeps_effectOf i s _ hp)

/-- The one push is checked against the capacity (R104, R208). -/
theorem effectOf_stack_length_le {i : Instr} {s : State} (hcheck : checkOf i s = none)
    (h : s.stack.length ≤ s.cfg.stackDepth) : (effectOf i s).stack.length ≤ s.cfg.stackDepth := by
  obtain hsame | ⟨nnn, rfl, hpush⟩ | ⟨-, a, hpop⟩ := effectOf_stack_cases i s
  · rwa [hsame]
  · have hroom : s.stack.length ≠ s.cfg.stackDepth := (stackCheck_eq_none_iff s).1 hcheck
    rw [hpush, List.length_append, List.length_singleton]
    omega
  · rw [hpop, List.length_append] at h
    omega

theorem effectOf_dispWf (i : Instr) {s : State} (h : dispWf s.cfg s.disp) : dispWf s.cfg (effectOf i s).disp := by
  by_cases hp : .disp ∈ changes i s
  · obtain rfl | ⟨x, y, n, rfl⟩ := (disp_mem_changes_iff i s).1 hp
    · exact blank_wf s.cfg
    · exact blitRows_wf s.cfg _ _ _ _ h
  · have hsame : (effectOf i s).disp = s.disp := keeps_effectOf i s _ hp
    rwa [hsame]

/-! ### Every kind of step keeps the invariant -/

theorem blockInv_effectOf {i : Instr} {s : State} (hcheck : checkOf i s = none) (h : BlockInv s) :
    BlockInv (effectOf i s) := by
  obtain ⟨hcfg, hmem, hstack, hdisp⟩ := h
  rw [BlockInv, effectOf_cfg]
  exact ⟨hcfg, effectOf_mem_wf i hmem, effectOf_stack_length_le hcheck hstack, effectOf_dispWf i hdisp⟩

theorem blockInv_runOpcode {s t : State} (h : BlockInv s) (hrun : runOpcode s = .next t) : BlockInv t := by
  obtain ⟨w, r, rfl⟩ | ⟨i, -, -, hcheck, rfl⟩ := runOpcode_cases hrun
  · exact h.of_same rfl rfl rfl rfl
  · exact blockInv_effectOf hcheck h

theorem StartsOpcode.blockInv {s s' : State} (hs : StartsOpcode s s') (h : BlockInv s) : BlockInv s' := by
  obtain ⟨-, ⟨-, rfl⟩ | ⟨inp, rest, -, rfl⟩⟩ := hs <;> exact h.of_same rfl rfl rfl rfl

theorem blockInv_frameTick {s : State} (h : BlockInv s) : BlockInv s.frameTick :=
  h.of_same s.frameTick_cfg (by simp [State.frameTick]) (by simp [State.frameTick]) (by simp [State.frameTick])

/-- Settles O51, by the three kinds of step: an opcode tick, a frame tick and a quit. -/
theorem stepKeepsInvariant : Obligations.StepKeepsInvariant := by
  intro s t h hstep
  obtain ⟨-, ⟨s', hs, hrun⟩ | ⟨rest, -, rfl⟩ | ⟨rest, -, rfl⟩⟩ := step_cases hstep
  · exact blockInv_runOpcode (hs.blockInv h) hrun
  · exact blockInv_frameTick (h.of_same rfl rfl rfl rfl)
  · exact h.of_same rfl rfl rfl rfl

/-! ### Reset -/

theorem defaultConfig_wf : defaultConfig.Wf := by decide

/-- The state before any ROM byte is placed meets the invariant, for any parameters that fit together. -/
theorem blockInv_initial {c : Config} (h : c.Wf) : BlockInv (State.initial c) :=
  ⟨h, Memory.wf_nil c, Nat.zero_le _, blank_wf c⟩

/-- Settles O50: reset is the initial state of the default parameters. -/
theorem resetMeetsInvariant : Obligations.ResetMeetsInvariant := blockInv_initial defaultConfig_wf

theorem State.initial_getV (c : Config) (x : Nibble) : (State.initial c).getV x = 0#8 := by
  simp [State.initial, State.getV]

/-- Settles O47, field by field; the registers and the pixels by what a fresh register file and a blank buffer hold. -/
theorem resetState : Obligations.ResetState := by
  exact ⟨rfl, rfl, rfl, by decide, by decide, by decide, State.initial_getV _, rfl, rfl, rfl, rfl, rfl, pixel_blank _⟩

end Sys2Proof.Machine
end

section
/-! SUPPORT. Non-interference: which instructions change the stack, `I`, the display and the registers, each from the frame
of every instruction (10_state.md R21 to R31); and the key choice (R43). -/

namespace Sys2Proof.Machine

/-- Settles O55, by what an instruction's effect does to the stack; a fault leaves it alone. -/
theorem onlyCallPushesAndReturnPops : Obligations.OnlyCallPushesAndReturnPops := by
  intro i s t h
  obtain ⟨r, -, rfl⟩ | ⟨-, rfl⟩ := exec_cases h
  · exact .inl rfl
  · exact effectOf_stack_cases i s

/-- Settles O56, from the frame of every instruction. -/
theorem onlyThreeInstructionsChangeI : Obligations.OnlyThreeInstructionsChangeI := by
  intro i s t h hi
  have hmem : .i ∈ changes i s := by simpa using exec_changed h (p := .i) hi
  exact (i_mem_changes_iff i s).1 hmem

/-- Settles O59, from the frame of every instruction. -/
theorem onlyNamedRegistersChange : Obligations.OnlyNamedRegistersChange := by
  intro i s t r h hr
  have hmem : .v r ∈ changes i s := by simpa using exec_changed h (p := .v r) hr
  exact (v_mem_changes_iff i s r).1 hmem

/-- An instruction may set the dirty flag and never clears it (R166). -/
theorem effectOf_dirty_of_dirty (i : Instr) {s : State} (h : s.dirty = true) : (effectOf i s).dirty = true := by
  by_cases hp : .dirty ∈ changes i s
  · obtain rfl | ⟨x, y, n, rfl⟩ := (dirty_mem_changes_iff i s).1 hp <;> simp [effectOf, h]
  · exact (keeps_effectOf i s _ hp).trans h

/-- Settles O58, from the frame of every instruction; the flag stays set by the two instructions that touch it. -/
theorem onlyClearAndDrawTouchDisplay : Obligations.OnlyClearAndDrawTouchDisplay := by
  refine fun i s t h => ⟨?changed, fun hdirty => ?kept⟩
  case changed =>
    rintro (hdisp | hdirty)
    · have hmem : .disp ∈ changes i s := by simpa using exec_changed h (p := .disp) hdisp
      exact (disp_mem_changes_iff i s).1 hmem
    · have hmem : .dirty ∈ changes i s := by simpa using exec_changed h (p := .dirty) hdirty
      exact (dirty_mem_changes_iff i s).1 hmem
  case kept =>
    obtain ⟨r, -, rfl⟩ | ⟨-, rfl⟩ := exec_cases h
    · exact hdirty
    · exact effectOf_dirty_of_dirty i hdirty

/-- Settles O39, by the laws of the key choice. -/
theorem pressedAnswerIsAnyKeyDown : Obligations.PressedAnswerIsAnyKeyDown :=
  fun keys => ⟨choosePressed_eq_none_iff keys, fun _ => ⟨fun ⟨_, h⟩ => choosePressed_down h, choosePressed_any⟩⟩

end Sys2Proof.Machine
end

section
/-! SUPPORT. Progress: a running block always steps, whatever its memory holds (10_state.md R38). -/

namespace Sys2Proof.Machine

/-- Every instruction answers a next state, by its fault or by its effect. -/
theorem exec_progress (i : Instr) (s : State) : ∃ t, exec i s = .next t := by
  cases hcheck : checkOf i s with
  | some r => exact ⟨_, exec_of_check_some hcheck⟩
  | none => exact ⟨_, exec_of_check_none hcheck⟩

/-- An opcode tick answers a next state, whether its fetch fails, its word is illegal, or its instruction runs. -/
theorem runOpcode_progress (s : State) : ∃ t, runOpcode s = .next t := by
  cases hfetch : s.fetchCheck with
  | some r => exact ⟨_, runOpcode_of_fetchCheck hfetch⟩
  | none =>
    have hf : Fetchable s := (fetchCheck_eq_none_iff s).1 hfetch
    cases hd : decodeWord s.fetchWord with
    | error e => exact ⟨_, runOpcode_of_illegal hf hd⟩
    | ok i => rw [runOpcode_of_decode hf hd]; exact exec_progress i s

theorem applyEvent_progress (e : Event) (s : State) : ∃ t, applyEvent e s = .next t := by
  cases e with
  | opcodeTick inp => exact runOpcode_progress _
  | frameTick => exact ⟨_, rfl⟩
  | quit => exact ⟨_, rfl⟩

theorem step_progress {s : State} (h : s.halt = .running) : ∃ t, step s = .next t := by
  rw [step_of_running h]
  cases hp : s.pending with
  | nil => rw [runNext_of_idle hp]; exact runOpcode_progress _
  | cons e rest => rw [runNext_of_event hp]; exact applyEvent_progress e _

/-- No event changes a block that is not running (R38). -/
theorem deliver_of_stopped (e : Event) {s : State} (h : s.halt ≠ .running) : deliver e s = .next s := by
  unfold deliver
  split
  · exact absurd ‹_› h
  all_goals rfl

/-- No iteration of the run loop changes a block that is not running (R38). -/
theorem iteration_of_stopped (hz passed : Nat) (inp : Inputs) {s : State} (h : s.halt ≠ .running) :
    iteration hz passed inp s = .next s := by
  unfold iteration
  split
  · exact absurd ‹_› h
  all_goals rfl

theorem step_of_stopped {s : State} (h : s.halt ≠ .running) : ∃ r, step s = .fault r := by
  cases hh : s.halt with
  | running => exact absurd hh h
  | faulted r => exact ⟨_, step_of_faulted hh⟩
  | quit => exact ⟨_, step_of_quit hh⟩

/-- Settles O9: progress while running, and nothing at all once stopped. -/
theorem blockStepsExactlyWhileRunning : Obligations.BlockStepsExactlyWhileRunning :=
  fun _ => ⟨step_progress, fun h =>
    ⟨step_of_stopped h, fun e => deliver_of_stopped e h, fun hz passed inp => iteration_of_stopped hz passed inp h⟩⟩

end Sys2Proof.Machine
end

section
/-! SUPPORT. Independence from the sound state (10_state.md R29, R37; 60_exceptions.md R213): an instruction run with other
values in `ST` and `TONE` has the same checks and the same effect, but for those values. -/

namespace Sys2Proof.Machine

/-- The state with other values in `ST` and `TONE`; their written marks stay. -/
def State.withSound (s : State) (b : Byte) (p : Bool) : State := { s with st := b, tone := p }

section
variable (s : State) (b : Byte) (p : Bool)

/-! ### The updates with a case of their own pass the sound state through -/

theorem State.withSound_skipIf (q : Bool) : (s.withSound b p).skipIf q = (s.skipIf q).withSound b p := by
  cases q <;> rfl

theorem State.withSound_popPC : (s.withSound b p).popPC = s.popPC.withSound b p := by
  obtain hnil | ⟨l, a, hpush⟩ := s.stack.eq_nil_or_concat
  · rw [s.popPC_empty hnil, (s.withSound b p).popPC_empty hnil]
  · have htop : s.stack = l ++ [a] := by simpa using hpush
    rw [s.popPC_push l a htop, (s.withSound b p).popPC_push l a htop]; rfl

theorem State.withSound_setFlagged (x : Nibble) (rf : Byte × Byte) :
    (s.withSound b p).setFlagged x rf = (s.setFlagged x rf).withSound b p := by
  unfold State.setFlagged
  have hcfg : (s.withSound b p).cfg = s.cfg := rfl
  rw [hcfg]
  cases s.cfg.vfDest <;> rfl

theorem State.withSound_takeKey (x : Nibble) (k : Option Nibble) :
    (s.withSound b p).takeKey x k = (s.takeKey x k).withSound b p := by
  cases k <;> rfl

theorem State.withSound_setVFrom (k : Nat) (bs : List Byte) :
    (s.withSound b p).setVFrom k bs = (s.setVFrom k bs).withSound b p := by
  induction bs generalizing s k with
  | nil => rfl
  | cons v vs ih => exact ih (s.setV (BitVec.ofNat 4 k) v) (k + 1)

/-! ### Checks, effects and instructions -/

/-- No check looks at the sound state. -/
theorem checkOf_withSound (i : Instr) : checkOf i (s.withSound b p) = checkOf i s := by
  cases i <;> rfl

/-- No effect but that of `Fx18` reads or writes the sound state. -/
theorem effectOf_withSound {i : Instr} (hi : ∀ x, i ≠ .ldStVx x) :
    effectOf i (s.withSound b p) = (effectOf i s).withSound b p := by
  match i with
  | .ldStVx x => exact absurd rfl (hi x)
  | .ret => exact s.advance.withSound_popPC b p
  | .seImm _ _ | .sneImm _ _ | .seReg _ _ | .sneReg _ _ | .skp _ | .sknp _ => exact s.advance.withSound_skipIf b p _
  | .addReg _ _ | .subReg _ _ | .shr _ _ | .subnReg _ _ | .shl _ _ => exact s.advance.withSound_setFlagged b p _ _
  | .ldVxK x => exact s.advance.withSound_takeKey b p x _
  | .ldVxMem _ => exact s.advance.withSound_setVFrom b p 0 _
  | .cls | .sys _ | .jp _ | .call _ | .jpV0 _ | .ldImm _ _ | .addImm _ _ | .ldReg _ _ | .orReg _ _ | .andReg _ _
  | .xorReg _ _ | .rnd _ _ | .drw _ _ _ | .ldVxDt _ | .ldDtVx _ | .ldI _ | .addI _ | .ldF _ | .ldB _ | .ldMemVx _ => rfl

theorem exec_withSound {i : Instr} {t : State} (hi : ∀ x, i ≠ .ldStVx x) (h : exec i s = .next t) :
    exec i (s.withSound b p) = .next (t.withSound b p) := by
  obtain ⟨r, hc, rfl⟩ | ⟨hc, rfl⟩ := exec_cases h
  · rw [exec_of_check_some ((checkOf_withSound s b p i).trans hc)]; rfl
  · rw [exec_of_check_none ((checkOf_withSound s b p i).trans hc), effectOf_withSound s b p hi]

/-- `Fx18` itself passes `TONE` through. -/
theorem exec_ldStVx_withTone {x : Nibble} {t : State} (h : exec (.ldStVx x) s = .next t) :
    exec (.ldStVx x) { s with tone := p } = .next { t with tone := p } := by
  have hc' : checkOf (.ldStVx x) { s with tone := p } = checkOf (.ldStVx x) s := checkOf_withSound s s.st p _
  obtain ⟨r, hc, rfl⟩ | ⟨hc, rfl⟩ := exec_cases h
  · rw [exec_of_check_some (hc'.trans hc)]; rfl
  · rw [exec_of_check_none (hc'.trans hc)]; rfl

/-- No instruction but `Fx18` writes `ST`. -/
theorem exec_st {s t : State} {i : Instr} (hi : ∀ x, i ≠ .ldStVx x) (h : exec i s = .next t) : t.st = s.st := by
  by_contra hst
  have hmem : .st ∈ changes i s := by simpa using exec_changed h (p := .st) hst
  obtain ⟨x, hx⟩ := (st_mem_changes_iff i s).1 hmem
  exact hi x hx

/-- No instruction writes `TONE`. -/
theorem exec_tone {s t : State} {i : Instr} (h : exec i s = .next t) : t.tone = s.tone := by
  by_contra htone
  exact tone_not_mem_changes i s (by simpa using exec_changed h (p := .tone) htone)

end

/-- Settles O60: `withSound` changes one of the two values where the other is given its old one, which no instruction but
`Fx18` has written. -/
theorem soundStateIsNotReadable : Obligations.SoundStateIsNotReadable := by
  refine fun i s t b p h => ⟨?tone, fun hi => ⟨?st, exec_st hi h⟩⟩
  case tone =>
    by_cases hi : ∃ x, i = .ldStVx x
    · obtain ⟨x, rfl⟩ := hi
      exact exec_ldStVx_withTone s p h
    · have hi' : ∀ x, i ≠ .ldStVx x := not_exists.1 hi
      exact (exec_withSound s s.st p hi' h).trans (by rw [← exec_st hi' h]; rfl)
  case st => exact (exec_withSound s b s.tone hi h).trans (by rw [← exec_tone h]; rfl)

end Sys2Proof.Machine
end

section
/-! SUPPORT. Memory (20_memory.md): which bytes an instruction changes and that its checks let it change them (R53, R59), so
that no step writes the font (R218); the fault of a failed fetch (R54); and that a stored word is the word fetched next
(R63). -/

namespace Sys2Proof.Machine

/-! ### Which bytes an instruction changes -/

theorem byte_mem_byteParts_iff (a b m : Nat) : .byte a ∈ byteParts b m ↔ b ≤ a ∧ a < b + m := by
  rw [mem_byteParts]
  constructor
  · rintro ⟨k, hk, ⟨⟩⟩
    omega
  · exact fun ⟨hb, hm⟩ => ⟨a - b, by omega, by rw [Nat.add_sub_cancel' hb]⟩

/-- The bytes among the parts an instruction changes are those of the two stores' transfers (R59). -/
theorem byte_mem_changes_iff (i : Instr) (s : State) (a : Nat) : .byte a ∈ changes i s ↔
    (∃ x, i = .ldB x ∧ s.i.toNat ≤ a ∧ a < s.i.toNat + 3) ∨
      ∃ x, i = .ldMemVx x ∧ s.i.toNat ≤ a ∧ a ≤ s.i.toNat + x.toNat := by
  cases i with
  | ldB x => simp [changes, -mem_byteParts, byte_mem_byteParts_iff, State.base]
  | ldMemVx x =>
    simp [changes, -mem_byteParts, byte_mem_byteParts_iff, State.base, regCount, ← Nat.add_assoc, Nat.lt_succ_iff]
  | _ => simp [changes]

/-- Settles O57, from the frame of every instruction. -/
theorem onlyStoresChangeMemory : Obligations.OnlyStoresChangeMemory := by
  intro i s t a h ha
  have hmem : .byte a ∈ changes i s := by simpa using exec_changed h (p := .byte a) ha
  exact (byte_mem_changes_iff i s a).1 hmem

/-! ### No step changes a byte that a store may not reach -/

theorem precheck_storeFault_eq_none_iff (c : Config) (a m : Nat) :
    precheck (storeFault c) a m = none ↔ ∀ k, k < m → Storable c (a + k) := by
  simp only [precheck_eq_none_iff, storeFault_eq_none_iff]

theorem checkOf_ldB_eq_none_iff (x : Nibble) (s : State) : checkOf (.ldB x) s = none ↔
    s.readable (reads (.ldB x)) = true ∧ ∀ k, k < 3 → Storable s.cfg (s.i.toNat + k) := by
  rw [checkOf, Option.or_eq_none_iff, precheck_storeFault_eq_none_iff, readCheck_eq_none_iff]; rfl

theorem checkOf_ldMemVx_eq_none_iff (x : Nibble) (s : State) : checkOf (.ldMemVx x) s = none ↔
    s.readable (reads (.ldMemVx x)) = true ∧ ∀ k, k ≤ x.toNat → Storable s.cfg (s.i.toNat + k) := by
  rw [checkOf, Option.or_eq_none_iff, precheck_storeFault_eq_none_iff, readCheck_eq_none_iff]
  simp only [regCount, Nat.lt_succ_iff]; rfl

/-- An instruction that passes its checks changes only bytes that a store may reach (R53, R144). -/
theorem storable_of_byte_mem_changes {i : Instr} {s : State} {a : Nat} (hcheck : checkOf i s = none)
    (ha : .byte a ∈ changes i s) : Storable s.cfg a := by
  obtain ⟨x, rfl, hle, hlt⟩ | ⟨x, rfl, hle, hlt⟩ := (byte_mem_changes_iff i s a).1 ha
  · have hall := ((checkOf_ldB_eq_none_iff x s).1 hcheck).2
    simpa [Nat.add_sub_cancel' hle] using hall (a - s.i.toNat) (by omega)
  · have hall := ((checkOf_ldMemVx_eq_none_iff x s).1 hcheck).2
    simpa [Nat.add_sub_cancel' hle] using hall (a - s.i.toNat) (by omega)

theorem runOpcode_readByte_of_not_storable {s t : State} {a : Nat} (h : runOpcode s = .next t)
    (ha : ¬Storable s.cfg a) : t.readByte a = s.readByte a := by
  obtain ⟨w, r, rfl⟩ | ⟨i, -, -, hcheck, rfl⟩ := runOpcode_cases h
  · exact keeps_enterFault s w r (.byte a) (by simp)
  · exact keeps_effectOf i s (.byte a) fun hmem => ha (storable_of_byte_mem_changes hcheck hmem)

theorem StartsOpcode.readByte_eq {s s' : State} (h : StartsOpcode s s') (a : Nat) : s'.readByte a = s.readByte a := by
  obtain ⟨-, ⟨-, rfl⟩ | ⟨inp, rest, -, rfl⟩⟩ := h <;> rfl

theorem step_readByte_of_not_storable {s t : State} {a : Nat} (h : step s = .next t) (ha : ¬Storable s.cfg a) :
    t.readByte a = s.readByte a := by
  obtain ⟨-, ⟨s', hs, hrun⟩ | ⟨rest, -, rfl⟩ | ⟨rest, -, rfl⟩⟩ := step_cases h
  · have ha' : ¬Storable s'.cfg a := by rwa [hs.cfg_eq]
    exact (runOpcode_readByte_of_not_storable hrun ha').trans (hs.readByte_eq a)
  · exact keeps_frameTick { s with pending := rest } (.byte a) (by simp)
  · rfl

/-- Settles O52: under the default policy a store may not reach the font. -/
theorem fontIsNeverOverwritten : Obligations.FontIsNeverOverwritten := by
  intro s t hpolicy h a hlo hhi
  refine step_readByte_of_not_storable h ?_
  rintro ⟨-, hwrite | hout⟩
  · rw [hpolicy] at hwrite; cases hwrite
  · exact hout ⟨hlo, hhi⟩

/-! ### A fetch that fails -/

theorem loadFault_of_le {c : Config} {a : Nat} (h : c.memSize ≤ a) :
    loadFault c a = some ⟨.memoryOutOfRange, some a⟩ := if_pos h

theorem fetchCheck_of_misaligned {s : State} (hodd : s.pc.toNat % 2 = 1) (hpolicy : s.cfg.oddPc = .fault) :
    s.fetchCheck = some ⟨.misalignedFetch, some s.pc.toNat⟩ := if_pos ⟨hodd, hpolicy⟩

/-- Where the alignment passes, the bounds of the two bytes are checked in order (R54). -/
theorem fetchCheck_of_aligned {s : State} (h : s.pc.toNat % 2 = 0 ∨ s.cfg.oddPc = .fetch) :
    s.fetchCheck = (loadFault s.cfg s.pc.toNat).or (loadFault s.cfg (s.pc.toNat + 1)) := by
  refine if_neg ?_
  rintro ⟨hodd, hpolicy⟩
  obtain heven | hfetch := h
  · omega
  · rw [hpolicy] at hfetch; cases hfetch

/-- An opcode tick whose fetch fails takes the fault of the failed check, with no word (R201). -/
theorem step_of_fetchCheck {s s' : State} {r : Raise} (hs : StartsOpcode s s') (h : s'.fetchCheck = some r) :
    ∃ t, step s = .next t ∧ TookFault ⟨r.kind, none, s'.pc, r.ea⟩ s' t :=
  ⟨_, (step_of_startsOpcode hs).trans (runOpcode_of_fetchCheck h), tookFault_enterFault s' none r⟩

/-- Settles O6, by the first check of the fetch that fails. -/
theorem failedFetchTakesItsFault : Obligations.FailedFetchTakesItsFault := by
  refine fun s s' hs => ⟨fun hodd hpolicy => ?misaligned, fun halign hle => ?first, fun halign heq => ?second⟩
  case misaligned => exact step_of_fetchCheck hs (fetchCheck_of_misaligned hodd hpolicy)
  case first =>
    refine step_of_fetchCheck hs (r := ⟨.memoryOutOfRange, some s'.pc.toNat⟩) ?_
    rw [fetchCheck_of_aligned halign, loadFault_of_le hle, Option.some_or]
  case second =>
    have hfirst : loadFault s'.cfg s'.pc.toNat = none := (loadFault_eq_none_iff _ _).2 (by omega)
    refine step_of_fetchCheck hs (r := ⟨.memoryOutOfRange, some (s'.pc.toNat + 1)⟩) ?_
    rw [fetchCheck_of_aligned halign, hfirst, Option.none_or, loadFault_of_le heq.le]

/-! ### A register dump and the next fetch -/

@[simp] theorem State.firstV_length (s : State) (x : Nibble) : (s.firstV x).length = x.toNat + 1 := by
  simp [State.firstV, regCount]

/-- What a register dump leaves at the addresses of its transfer (R146). -/
theorem readByte_effectOf_ldMemVx {x : Nibble} {s : State} {k : Nat} (hwf : Memory.wf s.cfg s.mem)
    (hmem : s.i.toNat + x.toNat < s.cfg.memSize) (hk : k ≤ x.toNat) :
    (effectOf (.ldMemVx x) s).readByte (s.i.toNat + k) = s.getV (BitVec.ofNat 4 k) := by
  have hfit : s.base + (s.firstV x).length ≤ s.advance.cfg.memSize := by
    rw [State.firstV_length]; exact hmem
  have hget : (s.firstV x)[k]? = some (s.getV (BitVec.ofNat 4 k)) := by
    simp [State.firstV, regCount, Nat.lt_succ_of_le hk]
  rw [effectOf, State.readByte_storeBytes s.advance _ _ hwf hfit]
  simp [State.base, hget]

/-- Settles O33: the dump passes its checks, leaves `PC` at its transfer, and the fetch reads the first two bytes of it. -/
theorem storeIsSeenByNextFetch : Obligations.StoreIsSeenByNextFetch := by
  intro x s hread hwf hstore hx hi
  have hcheck : checkOf (.ldMemVx x) s = none := (checkOf_ldMemVx_eq_none_iff x s).2 ⟨hread, hstore⟩
  have hmem : s.i.toNat + x.toNat < s.cfg.memSize := (hstore x.toNat (Nat.le_refl _)).1
  have hpc : (effectOf (.ldMemVx x) s).pc = s.i := hi.symm
  have hfirst : (effectOf (.ldMemVx x) s).readByte s.i.toNat = s.getV 0#4 :=
    readByte_effectOf_ldMemVx hwf hmem (Nat.zero_le _)
  have hsecond : (effectOf (.ldMemVx x) s).readByte (s.i.toNat + 1) = s.getV 1#4 :=
    readByte_effectOf_ldMemVx hwf hmem hx
  refine ⟨_, exec_of_check_none hcheck, hpc, ?_⟩
  rw [State.fetchWord, hpc, hfirst, hsecond]

end Sys2Proof.Machine
end

section
/-! SUPPORT. The decoder and the encoder (30_encoding.md R73 to R78, R80): a word decodes to an operation just where it is the
word of it and its fields are ones the operation has; the words that do not decode are those of R76; and an opcode tick runs
the operation decoded from the bytes at `PC` (R84). -/

namespace Sys2Proof

/-! ### The word of an operation decodes to it -/

theorem decodeWord?_group0 (nnn : Imm12) : decodeWord? (wordNNN 0x0#4 nnn) = some (decodeGroup0 nnn) := by
  simp [decodeWord?]

theorem decodeWord?_group8 (x y n : Nibble) : decodeWord? (wordXYN 0x8#4 x y n) = decodeGroup8 x y n := by
  simp [decodeWord?]

theorem decodeWord?_groupE (x : Nibble) (nn : Byte) : decodeWord? (wordXNN 0xE#4 x nn) = decodeGroupE x nn := by
  simp [decodeWord?]

theorem decodeWord?_groupF (x : Nibble) (nn : Byte) : decodeWord? (wordXNN 0xF#4 x nn) = decodeGroupF x nn := by
  simp [decodeWord?]

/-- A native call is what is left of group 0 after clear screen and return (R77). -/
theorem decodeGroup0_of_wellFormed {nnn : Imm12} (h : (Instr.sys nnn).wellFormed = true) :
    decodeGroup0 nnn = .sys nnn := by
  obtain ⟨hcls, hret⟩ : nnn ≠ 0x0E0#12 ∧ nnn ≠ 0x0EE#12 := by simpa [Instr.wellFormed] using h
  rw [decodeGroup0, if_neg hcls, if_neg hret]

theorem decodeWord?_encode {i : Instr} (h : i.wellFormed = true) : decodeWord? (encode i) = some i := by
  cases i with
  | cls | ret => decide
  | sys nnn => exact (decodeWord?_group0 nnn).trans (congrArg some (decodeGroup0_of_wellFormed h))
  | ldReg x y | orReg x y | andReg x y | xorReg x y | addReg x y | subReg x y | shr x y | subnReg x y | shl x y =>
    exact decodeWord?_group8 x y _
  | skp x | sknp x => exact decodeWord?_groupE x _
  | ldVxDt x | ldVxK x | ldDtVx x | ldStVx x | addI x | ldF x | ldB x | ldMemVx x | ldVxMem x =>
    exact decodeWord?_groupF x _
  | _ => simp [encode, decodeWord?]

theorem decode_cons_eq_ok_iff {b0 b1 : Byte} {rest rest' : List Byte} {i : Instr} :
    decode (b0 :: b1 :: rest) = .ok (i, rest') ↔ decodeWord (wordOfBytes b0 b1) = .ok i ∧ rest = rest' := by
  rw [decode_cons]
  cases decodeWord (wordOfBytes b0 b1) <;> simp [Except.map]

/-! ### A word that decodes is the word of its operation -/

theorem encode_decodeGroup0 (nnn : Imm12) :
    (decodeGroup0 nnn).wellFormed = true ∧ encode (decodeGroup0 nnn) = wordNNN 0x0#4 nnn := by
  unfold decodeGroup0
  split
  next hcls => subst hcls; decide
  next hcls =>
    split
    next hret => subst hret; decide
    next hret => exact ⟨by simp [Instr.wellFormed, hcls, hret], rfl⟩

/-- The selector `n` of a decoded word of group 8 is the one its operation is encoded with (R74). -/
theorem encode_of_decodeGroup8 {x y n : Nibble} {i : Instr} (h : decodeGroup8 x y n = some i) :
    i.wellFormed = true ∧ encode i = wordXYN 0x8#4 x y n := by
  unfold decodeGroup8 at h
  split at h <;> cases h
  all_goals
    rename_i hn
    exact ⟨rfl, congrArg (wordXYN 0x8#4 x y) (BitVec.eq_of_toNat_eq hn.symm)⟩

theorem encode_of_decodeGroupE {x : Nibble} {nn : Byte} {i : Instr} (h : decodeGroupE x nn = some i) :
    i.wellFormed = true ∧ encode i = wordXNN 0xE#4 x nn := by
  unfold decodeGroupE at h
  split at h <;> cases h
  all_goals
    rename_i hnn
    exact ⟨rfl, congrArg (wordXNN 0xE#4 x) (BitVec.eq_of_toNat_eq hnn.symm)⟩

theorem encode_of_decodeGroupF {x : Nibble} {nn : Byte} {i : Instr} (h : decodeGroupF x nn = some i) :
    i.wellFormed = true ∧ encode i = wordXNN 0xF#4 x nn := by
  unfold decodeGroupF at h
  split at h <;> cases h
  all_goals
    rename_i hnn
    exact ⟨rfl, congrArg (wordXNN 0xF#4 x) (BitVec.eq_of_toNat_eq hnn.symm)⟩

/-! #### A word is the number of its group and the fields its group reads -/

theorem wordNNN_of_group {w : Word} {a : Nibble} (h : (fieldA w).toNat = a.toNat) : wordNNN a (fieldNNN w) = w := by
  rw [← BitVec.eq_of_toNat_eq h, wordNNN_fields]

theorem wordXNN_of_group {w : Word} {a : Nibble} (h : (fieldA w).toNat = a.toNat) :
    wordXNN a (fieldX w) (fieldNN w) = w := by
  rw [← BitVec.eq_of_toNat_eq h, wordXNN_fields]

theorem wordXYN_of_group {w : Word} {a : Nibble} (h : (fieldA w).toNat = a.toNat) :
    wordXYN a (fieldX w) (fieldY w) (fieldN w) = w := by
  rw [← BitVec.eq_of_toNat_eq h, wordXYN_fields]

theorem wordXY0_of_group {w : Word} {a : Nibble} (h : (fieldA w).toNat = a.toNat) (hn : fieldN w = 0x0#4) :
    wordXYN a (fieldX w) (fieldY w) 0x0#4 = w := by
  rw [← hn, wordXYN_of_group h]

/-- By the groups of R73: case `h_k` of the split is group `k - 1`. -/
theorem encode_of_decodeWord? {w : Word} {i : Instr} (h : decodeWord? w = some i) :
    i.wellFormed = true ∧ encode i = w := by
  unfold decodeWord? at h
  split at h
  case h_1 ha =>
    cases h
    exact (encode_decodeGroup0 _).imp_right (·.trans (wordNNN_of_group ha))
  case h_2 ha | h_3 ha | h_11 ha | h_12 ha => cases h; exact ⟨rfl, wordNNN_of_group ha⟩
  case h_4 ha | h_5 ha | h_7 ha | h_8 ha | h_13 ha => cases h; exact ⟨rfl, wordXNN_of_group ha⟩
  case h_6 ha | h_10 ha =>
    obtain ⟨hn, ⟨⟩⟩ := Option.ite_none_right_eq_some.1 h
    exact ⟨rfl, wordXY0_of_group ha hn⟩
  case h_9 ha => exact (encode_of_decodeGroup8 h).imp_right (·.trans (wordXYN_of_group ha))
  case h_14 ha => cases h; exact ⟨rfl, wordXYN_of_group ha⟩
  case h_15 ha => exact (encode_of_decodeGroupE h).imp_right (·.trans (wordXNN_of_group ha))
  case h_16 =>
    have hlt := (fieldA w).isLt
    have ha : (fieldA w).toNat = 15 := by simp only [imp_false] at *; omega
    exact (encode_of_decodeGroupF h).imp_right (·.trans (wordXNN_of_group ha))

/-! ### The words that do not decode -/

theorem decodeGroup8_eq_none_iff (x y n : Nibble) :
    decodeGroup8 x y n = none ↔ n.toNat ∈ [0x8, 0x9, 0xA, 0xB, 0xC, 0xD, 0xF] := by
  have hlt := n.isLt
  unfold decodeGroup8
  split
  case h_10 =>
    simp only [imp_false] at *
    simp only [List.mem_cons, List.not_mem_nil, true_iff]
    omega
  all_goals simp_all

theorem decodeGroupE_eq_none_iff (x : Nibble) (nn : Byte) :
    decodeGroupE x nn = none ↔ nn.toNat ∉ [0x9E, 0xA1] := by
  unfold decodeGroupE
  split <;> simp_all

theorem decodeGroupF_eq_none_iff (x : Nibble) (nn : Byte) :
    decodeGroupF x nn = none ↔ nn.toNat ∉ [0x07, 0x0A, 0x15, 0x18, 0x1E, 0x29, 0x33, 0x55, 0x65] := by
  unfold decodeGroupF
  split <;> simp_all

end Sys2Proof

namespace Sys2Proof.Machine

/-- R76's list of numbers is what the decoder's groups refuse. -/
theorem illegal_iff (w : Word) : Illegal w ↔
    ((fieldA w).toNat = 0x5 ∧ fieldN w ≠ 0#4) ∨
      ((fieldA w).toNat = 0x8 ∧ decodeGroup8 (fieldX w) (fieldY w) (fieldN w) = none) ∨
      ((fieldA w).toNat = 0x9 ∧ fieldN w ≠ 0#4) ∨
      ((fieldA w).toNat = 0xE ∧ decodeGroupE (fieldX w) (fieldNN w) = none) ∨
      ((fieldA w).toNat = 0xF ∧ decodeGroupF (fieldX w) (fieldNN w) = none) := by
  rw [decodeGroup8_eq_none_iff, decodeGroupE_eq_none_iff, decodeGroupF_eq_none_iff, Ne, BitVec.toNat_eq, toNat_fieldA,
    toNat_fieldN, toNat_fieldNN]
  rfl

/-- By the groups of R73: a group without a fixed nibble refuses no word. -/
theorem decodeWord?_eq_none_iff (w : Word) : decodeWord? w = none ↔ Illegal w := by
  rw [illegal_iff]
  unfold decodeWord?
  split
  case h_16 =>
    have hlt := (fieldA w).isLt
    have ha : (fieldA w).toNat = 15 := by simp only [imp_false] at *; omega
    simp [ha]
  all_goals
    rename_i ha
    simp [ha]

/-! ### The statements -/

/-- Settles O1, by the encoding of each operation. -/
theorem decodeOfEncodeIsInstruction : Obligations.DecodeOfEncodeIsInstruction := by
  intro i hi
  have hdec : decodeWord (encode i) = .ok i := (decodeWord_eq_ok_iff _ _).2 (decodeWord?_encode hi)
  exact ⟨hdec, fun rest => by rw [decode_bytesOfWord, hdec]; rfl⟩

/-- Settles O2, by the groups of the opcode map. -/
theorem encodeOfDecodeIsWord : Obligations.EncodeOfDecodeIsWord :=
  fun w i h => encode_of_decodeWord? ((decodeWord_eq_ok_iff w i).1 h)

/-- Settles O3, by the groups of the opcode map. -/
theorem decoderRefusesExactlyIllegalWords : Obligations.DecoderRefusesExactlyIllegalWords :=
  fun w e => (decodeWord_eq_error_iff w e).trans (and_congr_left' (decodeWord?_eq_none_iff w))

/-- Settles O4, by running the decoder on each word. -/
theorem exampleWordsDecode : Obligations.ExampleWordsDecode := by
  unfold Obligations.ExampleWordsDecode
  decide

/-- Settles O5: the bytes at `PC` are those of the fetched word. -/
theorem stepRunsDecodedInstruction : Obligations.StepRunsDecodedInstruction := by
  intro s s' i hs hfetch hdec
  have hword : decodeWord s'.fetchWord = .ok i := (decode_cons_eq_ok_iff.1 hdec).1
  rw [step_of_startsOpcode hs, runOpcode_of_decode hfetch hword]

end Sys2Proof.Machine
end

section
/-! SUPPORT. Control transfer (40_control_flow.md R101 to R110): where each instruction leaves `PC` and the stack, with its
frame; the two control faults; and that return addresses stay even (R101's corner case). -/

namespace Sys2Proof.Machine

/-- An instruction whose check fails takes the whole effect of its fault, with its own word (R201, R206). -/
theorem exec_takes_fault {i : Instr} {s : State} {r : Raise} (h : checkOf i s = some r) :
    ∃ t, exec i s = .next t ∧ TookFault ⟨r.kind, some (encode i), s.pc, r.ea⟩ s t :=
  ⟨_, exec_of_check_some h, tookFault_enterFault s _ r⟩

/-! ### Return and call -/

theorem effectOf_ret_of_push {s : State} {l : List Addr} {a : Addr} (h : s.stack = l ++ [a]) :
    effectOf .ret s = { s with pc := a, stack := l } := s.advance.popPC_push l a h

theorem effectOf_ret_of_empty {s : State} (h : s.stack = []) : effectOf .ret s = s.advance := s.advance.popPC_empty h

/-- A return takes back the whole effect of a call but for the advance past it. -/
theorem effectOf_ret_effectOf_call (nnn : Imm12) (s : State) : effectOf .ret (effectOf (.call nnn) s) = s.advance :=
  effectOf_ret_of_push rfl

theorem stackCheck_of_full {s : State} (h : s.stack.length = s.cfg.stackDepth) :
    s.stackCheck = some ⟨.stackOverflow, none⟩ := if_pos h

theorem exec_call_of_room (nnn : Imm12) {s : State} (h : s.stack.length ≠ s.cfg.stackDepth) :
    exec (.call nnn) s = .next (effectOf (.call nnn) s) := exec_of_check_none ((stackCheck_eq_none_iff s).2 h)

/-! ### The addresses of jumps -/

@[simp] theorem toNat_absolute (nnn : Imm12) : (absolute nnn).toNat = nnn.toNat :=
  BitVec.toNat_setWidth_of_le (by decide)

@[simp] theorem toNat_zextByte (b : Byte) : (zextByte b).toNat = b.toNat := BitVec.toNat_setWidth_of_le (by decide)

/-- The sum of a byte and a 12-bit address fits in 16 bits, so it is exact (R109). -/
theorem toNat_zextByte_add_absolute (b : Byte) (nnn : Imm12) :
    (zextByte b + absolute nnn).toNat = b.toNat + nnn.toNat := by
  rw [BitVec.toNat_add, toNat_zextByte, toNat_absolute]
  omega

/-! ### Skips -/

/-- A skip after the advance has the whole effect of R110. -/
theorem skipped_advance_skipIf {p : Prop} {q : Bool} (s : State) (h : q = true ↔ p) :
    Skipped p s (s.advance.skipIf q) := by
  refine ⟨fun hp => ?taken, fun hp => ?passed, (keeps_advance s).trans_same (keeps_skipIf _ q)⟩
  case taken =>
    rw [h.2 hp, State.skipIf_true, State.setPC_pc, State.advance_pc, BitVec.add_assoc]
    rfl
  case passed =>
    have hq : q = false := Bool.eq_false_iff.2 (mt h.1 hp)
    rw [hq, State.skipIf_false, State.advance_pc]

/-- An instruction that passes its checks and skips on `q` skips where `p` holds. -/
theorem exec_skips {i : Instr} {s : State} {p : Prop} {q : Bool} (hcheck : checkOf i s = none)
    (heffect : effectOf i s = s.advance.skipIf q) (h : q = true ↔ p) : ∃ t, exec i s = .next t ∧ Skipped p s t :=
  ⟨_, exec_of_check_none hcheck, heffect ▸ skipped_advance_skipIf s h⟩

/-! ### Return addresses stay even -/

theorem even_add_two {a : Addr} (h : a.toNat % 2 = 0) : (a + 2#16).toNat % 2 = 0 := by
  rw [BitVec.toNat_add, BitVec.toNat_ofNat]
  omega

/-- Where odd fetches fault, a fetched instruction is at an even address (R54). -/
theorem Fetchable.even_pc {s : State} (h : Fetchable s) (hpolicy : s.cfg.oddPc = .fault) : s.pc.toNat % 2 = 0 := by
  obtain ⟨heven | hfetch, -⟩ := h
  · exact heven
  · rw [hpolicy] at hfetch; cases hfetch

/-- The entries an instruction's effect leaves are old ones or the address after the instruction. -/
theorem mem_effectOf_stack {i : Instr} {s : State} {a : Addr} (h : a ∈ (effectOf i s).stack) :
    a ∈ s.stack ∨ a = s.pc + 2#16 := by
  obtain hsame | ⟨nnn, -, hpush⟩ | ⟨-, top, hpop⟩ := effectOf_stack_cases i s
  · exact .inl (hsame ▸ h)
  · simpa [hpush] using h
  · exact .inl (hpop ▸ List.mem_append_left _ h)

theorem runOpcode_stack_even {s t : State} (hpolicy : s.cfg.oddPc = .fault) (heven : ∀ a ∈ s.stack, a.toNat % 2 = 0)
    (h : runOpcode s = .next t) : ∀ a ∈ t.stack, a.toNat % 2 = 0 := by
  obtain ⟨w, r, rfl⟩ | ⟨i, hfetch, -, -, rfl⟩ := runOpcode_cases h
  · exact heven
  · intro a ha
    obtain hold | rfl := mem_effectOf_stack ha
    · exact heven a hold
    · exact even_add_two (hfetch.even_pc hpolicy)

theorem StartsOpcode.stack_eq {s s' : State} (h : StartsOpcode s s') : s'.stack = s.stack := by
  obtain ⟨-, ⟨-, rfl⟩ | ⟨inp, rest, -, rfl⟩⟩ := h <;> rfl

theorem State.frameTick_stack (s : State) : s.frameTick.stack = s.stack := keeps_frameTick s .stack (by simp)

/-! ### The statements -/

/-- Settles O12, by the two cases of the return's effect. -/
theorem returnPopsOrGoesOn : Obligations.ReturnPopsOrGoesOn := by
  refine fun s => ⟨_, exec_of_check_none rfl, fun l a hpush => ?pop, fun hempty => ?goOn⟩
  case pop =>
    have heffect := effectOf_ret_of_push hpush
    exact ⟨congrArg State.pc heffect, congrArg State.stack heffect, keeps_effectOf .ret s⟩
  case goOn =>
    rw [effectOf_ret_of_empty hempty]
    exact ⟨rfl, keeps_advance s⟩

/-- Settles O13: the check of a native call fails in every state. -/
theorem nativeCallTakesItsFault : Obligations.NativeCallTakesItsFault :=
  fun nnn _ _ => exec_takes_fault (i := .sys nnn) rfl

/-- Settles O14, from the jump's effect and its frame. -/
theorem jumpSetsOnlyPC : Obligations.JumpSetsOnlyPC :=
  fun nnn s => ⟨_, exec_of_check_none rfl, toNat_absolute nnn, keeps_effectOf (.jp nnn) s⟩

/-- Settles O15, by the capacity check of the call. -/
theorem callPushesOrOverflows : Obligations.CallPushesOrOverflows := by
  refine fun nnn s => ⟨fun hroom => ?push, fun hfull => ?overflow⟩
  case push => exact ⟨_, exec_call_of_room nnn hroom, rfl, toNat_absolute nnn, keeps_effectOf (.call nnn) s⟩
  case overflow => exact exec_takes_fault (i := .call nnn) (stackCheck_of_full hfull)

/-- Settles O16: after the call and the return the state is the one advanced past the call. -/
theorem callThenReturnGoesOnAfterCall : Obligations.CallThenReturnGoesOnAfterCall := by
  intro nnn s hroom
  refine ⟨_, _, exec_call_of_room nnn hroom, exec_of_check_none rfl, ?_⟩
  rw [effectOf_ret_effectOf_call]
  exact ⟨rfl, rfl, keeps_advance s⟩

/-- Settles O17, by the two comparisons. -/
theorem immediateSkipsCompare : Obligations.ImmediateSkipsCompare := by
  intro x nn s hread
  have hcheck : s.readCheck [.v x] = none := (readCheck_eq_none_iff s _).2 hread
  exact ⟨exec_skips (i := .seImm x nn) hcheck rfl beq_iff_eq, exec_skips (i := .sneImm x nn) hcheck rfl bne_iff_ne⟩

/-- Settles O18, by the two comparisons. -/
theorem registerSkipsCompare : Obligations.RegisterSkipsCompare := by
  intro x y s hread
  have hcheck : s.readCheck [.v x, .v y] = none := (readCheck_eq_none_iff s _).2 hread
  exact ⟨exec_skips (i := .seReg x y) hcheck rfl beq_iff_eq, exec_skips (i := .sneReg x y) hcheck rfl bne_iff_ne⟩

/-- Settles O19: the 16-bit sum is exact. -/
theorem indexedJumpAddsV0 : Obligations.IndexedJumpAddsV0 := by
  intro nnn s hread
  have hcheck : checkOf (.jpV0 nnn) s = none := (readCheck_eq_none_iff s _).2 hread
  exact ⟨_, exec_of_check_none hcheck, toNat_zextByte_add_absolute _ nnn, keeps_effectOf (.jpV0 nnn) s⟩

/-- Settles O53: a push comes from a fetched, so even, address; a frame tick and a quit leave the stack. -/
theorem returnAddressesStayEven : Obligations.ReturnAddressesStayEven := by
  intro s t hpolicy heven hstep
  obtain ⟨-, ⟨s', hs, hrun⟩ | ⟨rest, -, rfl⟩ | ⟨rest, -, rfl⟩⟩ := step_cases hstep
  · exact runOpcode_stack_even (hs.cfg_eq ▸ hpolicy) (hs.stack_eq ▸ heven) hrun
  · rwa [State.frameTick_stack]
  · exact heven

end Sys2Proof.Machine
end

section
/-! SUPPORT. Register arithmetic and logic (41_alu.md R120 to R134): the whole effect of the one-register writes and of the
flag-writing operations, and the arithmetic of results and flags. -/

namespace Sys2Proof.Machine

/-! ### Whole effects -/

/-- A register write after the advance has the whole effect of a one-register instruction. -/
theorem wroteV_advance_setV (s : State) (x : Nibble) (b : Byte) : WroteV x b s (s.advance.setV x b) :=
  ⟨State.getV_setV_same _ x b, State.isWritten_setV_same _ x b, rfl, (keeps_advance s).trans (keeps_setV _ x b)⟩

/-- A flagged write after the advance has the whole effect of R122, under either policy and also where `x` is `VF`. -/
theorem wroteFlagged_advance_setFlagged (s : State) (x : Nibble) (rf : Byte × Byte) :
    WroteFlagged x rf.1 rf.2 s (s.advance.setFlagged x rf) := by
  obtain ⟨hdest, hflag⟩ := s.advance.isWritten_setFlagged_dest x rf
  refine ⟨fun hx => ⟨?result, ?flag⟩, fun _ hfirst => ?flagLast, fun hx hlast => ?resultLast, hdest, hflag,
    State.setFlagged_pc _ x rf, (keeps_advance s).trans (keeps_setFlagged _ x rf)⟩
  case result => rw [State.getV_setFlagged, if_neg hx, if_pos rfl]
  case flag => rw [State.getV_setFlagged, if_pos rfl, if_neg fun h => hx h.1]
  case flagLast => rw [State.getV_setFlagged, if_pos rfl, if_neg (by simp [hfirst])]
  case resultLast => rw [State.getV_setFlagged, if_pos rfl, if_pos ⟨hx, hlast⟩]

/-! ### Results and flags -/

@[simp] theorem toNat_flagByte (p : Bool) : (flagByte p).toNat = p.toNat := by
  cases p <;> rfl

theorem toNat_flagByte_decide (p : Prop) [Decidable p] : (flagByte (decide p)).toNat = if p then 1 else 0 := by
  by_cases h : p <;> simp [h]

/-- The flag of a bit of a byte is that binary digit of its value (R131, R133). -/
theorem toNat_flagByte_getLsbD (a : Byte) (k : Nat) : (flagByte (a.getLsbD k)).toNat = a.toNat / 2 ^ k % 2 := by
  rw [toNat_flagByte, BitVec.getLsbD, Nat.toNat_testBit]

/-- The model's subtraction, which stays in the naturals by adding 256, is the difference modulo 256 (R121). -/
theorem subFlags_result (a b : Byte) : (subFlags a b).1 = a - b := by
  apply BitVec.eq_of_toNat_eq
  have hb := b.isLt
  rw [subFlags, BitVec.toNat_ofNat, BitVec.toNat_sub]
  omega

theorem shrFlags_result (a : Byte) : (shrFlags a).1.toNat = a.toNat / 2 := by
  rw [shrFlags, BitVec.toNat_ushiftRight, Nat.shiftRight_eq_div_pow, pow_one]

theorem shlFlags_result (a : Byte) : (shlFlags a).1.toNat = a.toNat * 2 % 256 := by
  rw [shlFlags, BitVec.toNat_shiftLeft, Nat.shiftLeft_eq, pow_one]

theorem shrFlags_flag (a : Byte) : (shrFlags a).2.toNat = a.toNat % 2 := by
  rw [shrFlags, toNat_flagByte_getLsbD, pow_zero, Nat.div_one]

/-- The top bit of a byte is the quotient by 128, which is less than 2. -/
theorem shlFlags_flag (a : Byte) : (shlFlags a).2.toNat = a.toNat / 128 := by
  have ha := a.isLt
  rw [shlFlags, toNat_flagByte_getLsbD]
  omega

/-! ### The inputs of a tick -/

theorem State.inputs_of_sample {s : State} {inp : Inputs} (h : s.sample = some inp) : s.inputs = inp := by
  rw [State.inputs, h]

/-! ### The statements -/

/-- Settles O20: the three writes; the sum of two bytes is taken modulo 256. -/
theorem loadAddMoveWriteOneRegister : Obligations.LoadAddMoveWriteOneRegister := by
  refine fun x y nn s => ⟨?load, fun hread => ?add, fun hread => ?move⟩
  case load => exact ⟨_, exec_of_check_none rfl, wroteV_advance_setV s x nn⟩
  case add =>
    have hcheck : checkOf (.addImm x nn) s = none := (readCheck_eq_none_iff s _).2 hread
    exact ⟨_, _, exec_of_check_none hcheck, BitVec.toNat_add _ nn, wroteV_advance_setV s x _⟩
  case move =>
    have hcheck : checkOf (.ldReg x y) s = none := (readCheck_eq_none_iff s _).2 hread
    exact ⟨_, exec_of_check_none hcheck, wroteV_advance_setV s x _⟩

/-- Settles O21: each operation writes the byte whose bits are combined one by one. -/
theorem logicWritesOneRegister : Obligations.LogicWritesOneRegister := by
  intro x y s hread
  have hcheck : s.readCheck [.v x, .v y] = none := (readCheck_eq_none_iff s _).2 hread
  refine ⟨⟨_, _, exec_of_check_none (i := .orReg x y) hcheck, wroteV_advance_setV s x _, fun k => ?_⟩,
    ⟨_, _, exec_of_check_none (i := .andReg x y) hcheck, wroteV_advance_setV s x _, fun k => ?_⟩,
    ⟨_, _, exec_of_check_none (i := .xorReg x y) hcheck, wroteV_advance_setV s x _, fun k => ?_⟩⟩
  · exact BitVec.getLsbD_or
  · exact BitVec.getLsbD_and
  · exact BitVec.getLsbD_xor

/-- Settles O22, by the whole effect of a flagged write. -/
theorem addGivesSumAndCarry : Obligations.AddGivesSumAndCarry := by
  intro x y s hread
  have hcheck : checkOf (.addReg x y) s = none := (readCheck_eq_none_iff s _).2 hread
  exact ⟨_, _, _, exec_of_check_none hcheck, wroteFlagged_advance_setFlagged s x _, BitVec.toNat_ofNat _ 8,
    toNat_flagByte_decide _⟩

/-- Settles O23: the two instructions are one subtraction with the operands exchanged. -/
theorem subtractionsGiveDifferenceAndNoBorrow : Obligations.SubtractionsGiveDifferenceAndNoBorrow := by
  intro x y s hread
  have hcheck : s.readCheck [.v x, .v y] = none := (readCheck_eq_none_iff s _).2 hread
  exact ⟨⟨_, _, _, exec_of_check_none (i := .subReg x y) hcheck, wroteFlagged_advance_setFlagged s x _,
      subFlags_result _ _, toNat_flagByte_decide _⟩,
    ⟨_, _, _, exec_of_check_none (i := .subnReg x y) hcheck, wroteFlagged_advance_setFlagged s x _,
      subFlags_result _ _, toNat_flagByte_decide _⟩⟩

/-- Settles O24, by the arithmetic of the two shifts. -/
theorem shiftsGiveResultAndBitShiftedOut : Obligations.ShiftsGiveResultAndBitShiftedOut := by
  intro x y s hread
  have hcheck : s.readCheck [.v x] = none := (readCheck_eq_none_iff s _).2 hread
  exact ⟨⟨_, _, _, exec_of_check_none (i := .shr x y) hcheck, wroteFlagged_advance_setFlagged s x _,
      shrFlags_result _, shrFlags_flag _⟩,
    ⟨_, _, _, exec_of_check_none (i := .shl x y) hcheck, wroteFlagged_advance_setFlagged s x _,
      shlFlags_result _, shlFlags_flag _⟩⟩

/-- Settles O25: the byte is that of the tick's inputs, sampled or drawn. -/
theorem randomLoadIsMasked : Obligations.RandomLoadIsMasked :=
  fun x _ s => ⟨_, s.inputs.rand, exec_of_check_none rfl, fun _ h => congrArg Inputs.rand (State.inputs_of_sample h),
    wroteV_advance_setV s x _⟩

end Sys2Proof.Machine
end

section
/-! SUPPORT. The address register and the memory transfers (42_index_memory.md R140 to R147): the whole effect of the writes
of `I`; what the stores leave in memory and the load in the registers; and the fault of a transfer, which the draw takes too
(R163). -/

namespace Sys2Proof.Machine

/-! ### The writes of `I` -/

/-- An instruction that passes its checks, advances and sets `I` has the whole effect of a write of `I`. -/
theorem exec_sets_i {i : Instr} {s : State} {a : Addr} {n : Nat} (hcheck : checkOf i s = none)
    (heffect : effectOf i s = s.advance.setI a) (ha : a.toNat = n) : ∃ t, exec i s = .next t ∧ t.i.toNat = n ∧
      t.isWritten .i = true ∧ t.pc = s.pc + 2#16 ∧ Keeps [.pc, .i, .written .i] s t := by
  refine ⟨_, exec_of_check_none hcheck, ?_⟩
  rw [heffect]
  exact ⟨ha, rfl, rfl, (keeps_advance s).trans (keeps_setI _ a)⟩

/-! ### The BCD store -/

/-- The digits the model writes are the decimal digits as numbers: none is lost in a byte (R145). -/
theorem map_toNat_bcdDigits (b : Byte) :
    (bcdDigits b).map BitVec.toNat = [b.toNat / 100, b.toNat / 10 % 10, b.toNat % 10] := by
  have hb := b.isLt
  simp only [bcdDigits, List.map_cons, List.map_nil, BitVec.toNat_ofNat, List.cons.injEq, and_true]
  omega

/-- What the BCD store leaves at the addresses of its transfer (R145). -/
theorem readByte_effectOf_ldB {x : Nibble} {s : State} {k d : Nat} (hwf : Memory.wf s.cfg s.mem)
    (hmem : s.i.toNat + 2 < s.cfg.memSize)
    (hd : [(s.getV x).toNat / 100, (s.getV x).toNat / 10 % 10, (s.getV x).toNat % 10][k]? = some d) :
    ((effectOf (.ldB x) s).readByte (s.i.toNat + k)).toNat = d := by
  rw [← map_toNat_bcdDigits, List.getElem?_map] at hd
  obtain ⟨b, hb, rfl⟩ := Option.map_eq_some_iff.1 hd
  rw [effectOf, State.readByte_storeBytes s.advance _ _ hwf hmem]
  simp [State.base, hb]

/-! ### The register load -/

theorem precheck_loadFault_eq_none_iff (c : Config) (a m : Nat) :
    precheck (loadFault c) a m = none ↔ ∀ k, k < m → a + k < c.memSize := by
  simp only [precheck_eq_none_iff, loadFault_eq_none_iff]

/-- The bytes of a load are inside memory where its last one is. -/
theorem checkOf_ldVxMem_eq_none_iff (x : Nibble) (s : State) : checkOf (.ldVxMem x) s = none ↔
    s.readable [.i] = true ∧ s.i.toNat + x.toNat < s.cfg.memSize := by
  rw [checkOf, Option.or_eq_none_iff, precheck_loadFault_eq_none_iff, readCheck_eq_none_iff]
  refine and_congr_right fun _ => ⟨fun h => h x.toNat (Nat.lt_succ_self _), fun h k hk => ?_⟩
  have hle : k ≤ x.toNat := Nat.le_of_lt_succ hk
  exact Nat.lt_of_le_of_lt (Nat.add_le_add_left hle _) h

/-- What a register load leaves in the registers of its range (R147). -/
theorem getV_effectOf_ldVxMem (x : Nibble) (s : State) {k : Nat} (hk : k ≤ x.toNat) :
    (effectOf (.ldVxMem x) s).getV (BitVec.ofNat 4 k) = s.readByte (s.i.toNat + k) := by
  have hx := x.isLt
  have hfit : 0 + (s.readBytes s.base (regCount x)).length ≤ 16 := by
    simp only [State.readBytes, List.length_map, List.length_range, regCount]; omega
  have hget : (s.readBytes s.base (regCount x))[k]? = some (s.readByte (s.i.toNat + k)) := by
    simp [State.readBytes, State.base, regCount, Nat.lt_succ_of_le hk]
  rw [effectOf, State.getV_setVFrom _ _ _ hfit, ofNat_toNat_nibble (Nat.lt_of_le_of_lt hk hx)]
  simp [hget]

/-- A register write clears no written mark (R34). -/
theorem State.isWritten_setV_of_isWritten {s : State} {r : Source} (h : s.isWritten r = true) (x : Nibble) (b : Byte) :
    (s.setV x b).isWritten r = true := by
  by_cases hr : r = .v x
  · rw [hr, State.isWritten_setV_same]
  · rwa [State.isWritten_setV_other _ _ _ _ hr]

theorem State.isWritten_setVFrom_of_isWritten {s : State} {r : Source} (h : s.isWritten r = true) (k : Nat)
    (bs : List Byte) : (s.setVFrom k bs).isWritten r = true := by
  induction bs generalizing s k with
  | nil => exact h
  | cons b bs ih => exact ih (State.isWritten_setV_of_isWritten h _ b) (k + 1)

/-- A write of consecutive registers marks each of them (R34, R147). -/
theorem State.isWritten_setVFrom (s : State) (k : Nat) {bs : List Byte} {j : Nat} (hj : j < bs.length) :
    (s.setVFrom k bs).isWritten (.v (BitVec.ofNat 4 (k + j))) = true := by
  induction bs generalizing s k j with
  | nil => cases hj
  | cons b bs ih =>
    cases j with
    | zero => exact State.isWritten_setVFrom_of_isWritten (State.isWritten_setV_same s _ b) (k + 1) bs
    | succ j =>
      rw [← Nat.succ_add_eq_add_succ]
      exact ih _ (k + 1) (Nat.lt_of_succ_lt_succ hj)

theorem isWritten_effectOf_ldVxMem (x : Nibble) (s : State) {k : Nat} (hk : k ≤ x.toNat) :
    (effectOf (.ldVxMem x) s).isWritten (.v (BitVec.ofNat 4 k)) = true := by
  have hlen : k < (s.readBytes s.base (regCount x)).length := by
    simpa [State.readBytes, regCount] using Nat.lt_succ_of_le hk
  have hmark := s.advance.isWritten_setVFrom 0 hlen
  rw [Nat.zero_add] at hmark
  exact hmark

/-! ### A transfer that fails -/

/-- Bounds come before the font region, so a byte inside memory that may not be stored is refused for the font (R221). -/
theorem storeFault_of_not_storable {c : Config} {a : Nat} (hmem : a < c.memSize) (h : ¬Storable c a) :
    storeFault c a = some ⟨.fontRegionWrite, some a⟩ := by
  have hfail : storeFault c a ≠ none := mt (storeFault_eq_none_iff c a).1 h
  rw [storeFault, if_neg (Nat.not_le.2 hmem)] at hfail ⊢
  exact if_pos (by_contra fun hfont => hfail (if_neg hfont))

theorem storeFault_of_le {c : Config} {a : Nat} (h : c.memSize ≤ a) :
    storeFault c a = some ⟨.memoryOutOfRange, some a⟩ := if_pos h

/-- An instruction that checks `m` bytes from `I` after its reads takes the fault of the first byte that fails (R144). -/
theorem exec_takes_transfer_fault {i : Instr} {s : State} {f : Nat → Option Raise} {m k : Nat} {r : Raise}
    (hcheck : checkOf i s = (s.readCheck (reads i)).or (precheck f s.base m)) (hread : s.readable (reads i) = true)
    (hk : k < m) (hbefore : ∀ j, j < k → f (s.i.toNat + j) = none) (hr : f (s.i.toNat + k) = some r) :
    ∃ t, exec i s = .next t ∧ TookFault ⟨r.kind, some (encode i), s.pc, r.ea⟩ s t := by
  refine exec_takes_fault ?_
  rw [hcheck, (readCheck_eq_none_iff s _).2 hread, Option.none_or]
  exact precheck_of_first f _ m k r hk hr hbefore

/-- The two stores make the same checks, on their own count of bytes. -/
theorem checkOf_store {i : Instr} {m : Nat} (h : (∃ x, i = .ldB x ∧ m = 3) ∨ ∃ x, i = .ldMemVx x ∧ m = x.toNat + 1)
    (s : State) : checkOf i s = (s.readCheck (reads i)).or (precheck (storeFault s.cfg) s.base m) := by
  obtain ⟨x, rfl, rfl⟩ | ⟨x, rfl, rfl⟩ := h <;> rfl

/-- The register load and the draw make the same checks, on their own count of bytes. -/
theorem checkOf_load {i : Instr} {m : Nat}
    (h : (∃ x, i = .ldVxMem x ∧ m = x.toNat + 1) ∨ ∃ x y n, i = .drw x y n ∧ m = n.toNat) (s : State) :
    checkOf i s = (s.readCheck (reads i)).or (precheck (loadFault s.cfg) s.base m) := by
  obtain ⟨x, rfl, rfl⟩ | ⟨x, y, n, rfl, rfl⟩ := h <;> rfl

/-! ### The statements -/

/-- Settles O26: each of the three sets `I` to the 16-bit value of its address. -/
theorem addressRegisterWrites : Obligations.AddressRegisterWrites := by
  refine fun x nnn s => ⟨?load, fun hread => ?add, fun hread => ?glyph⟩
  case load => exact exec_sets_i (i := .ldI nnn) rfl rfl (toNat_absolute nnn)
  case add =>
    have hcheck : checkOf (.addI x) s = none := (readCheck_eq_none_iff s _).2 hread
    refine exec_sets_i hcheck rfl ?_
    rw [BitVec.toNat_add, toNat_zextByte]
  case glyph =>
    have hcheck : checkOf (.ldF x) s = none := (readCheck_eq_none_iff s _).2 hread
    exact exec_sets_i hcheck rfl (BitVec.toNat_ofNat _ 16)

/-- Settles O27, by the bytes the store leaves and its frame. -/
theorem bcdStoreWritesDigits : Obligations.BcdStoreWritesDigits := by
  intro x s hread hwf hstore
  have hcheck : checkOf (.ldB x) s = none := (checkOf_ldB_eq_none_iff x s).2 ⟨hread, hstore⟩
  have hmem : s.i.toNat + 2 < s.cfg.memSize := (hstore 2 (by decide)).1
  exact ⟨_, exec_of_check_none hcheck, readByte_effectOf_ldB (k := 0) hwf hmem rfl,
    readByte_effectOf_ldB (k := 1) hwf hmem rfl, readByte_effectOf_ldB (k := 2) hwf hmem rfl, rfl,
    keeps_effectOf (.ldB x) s⟩

/-- Settles O28, by the bytes the dump leaves and its frame. -/
theorem registerDumpStoresRegisters : Obligations.RegisterDumpStoresRegisters := by
  intro x s hread hwf hstore
  have hcheck : checkOf (.ldMemVx x) s = none := (checkOf_ldMemVx_eq_none_iff x s).2 ⟨hread, hstore⟩
  have hmem : s.i.toNat + x.toNat < s.cfg.memSize := (hstore x.toNat (Nat.le_refl _)).1
  exact ⟨_, exec_of_check_none hcheck, fun k hk => readByte_effectOf_ldMemVx hwf hmem hk, rfl,
    keeps_effectOf (.ldMemVx x) s⟩

/-- Settles O29, by the registers and marks the load leaves and its frame. -/
theorem registerLoadReadsMemory : Obligations.RegisterLoadReadsMemory := by
  intro x s hread hmem
  have hcheck : checkOf (.ldVxMem x) s = none := (checkOf_ldVxMem_eq_none_iff x s).2 ⟨hread, hmem⟩
  exact ⟨_, exec_of_check_none hcheck,
    fun k hk => ⟨getV_effectOf_ldVxMem x s hk, isWritten_effectOf_ldVxMem x s hk⟩,
    State.setVFrom_pc s.advance 0 _, keeps_effectOf (.ldVxMem x) s⟩

/-- Settles O30, by the two ways a byte may not be stored. -/
theorem failedStoreReportsFirstAddress : Obligations.FailedStoreReportsFirstAddress := by
  intro i m k s hi hread hk hbefore
  have hbefore' : ∀ j, j < k → storeFault s.cfg (s.i.toNat + j) = none :=
    fun j hj => (storeFault_eq_none_iff _ _).2 (hbefore j hj)
  refine ⟨fun hout => ?bounds, fun hin hfont => ?font⟩
  case bounds => exact exec_takes_transfer_fault (checkOf_store hi s) hread hk hbefore' (storeFault_of_le hout)
  case font =>
    exact exec_takes_transfer_fault (checkOf_store hi s) hread hk hbefore' (storeFault_of_not_storable hin hfont)

/-- Settles O31: a byte is refused to a load or a draw only for lying outside memory. -/
theorem failedLoadReportsFirstAddress : Obligations.FailedLoadReportsFirstAddress := by
  intro i m k s hi hread hk hbefore hout
  have hbefore' : ∀ j, j < k → loadFault s.cfg (s.i.toNat + j) = none :=
    fun j hj => (loadFault_eq_none_iff _ _).2 (hbefore j hj)
  exact exec_takes_transfer_fault (checkOf_load hi s) hread hk hbefore' (loadFault_of_le hout)

/-- Settles O32: the load reads the bytes that the dump has left, since a byte of memory depends on `cfg` and `mem` alone. -/
theorem dumpThenLoadRestores : Obligations.DumpThenLoadRestores := by
  intro x s hread hwf hstore
  have hdump : checkOf (.ldMemVx x) s = none := (checkOf_ldMemVx_eq_none_iff x s).2 ⟨hread, hstore⟩
  have hmem : s.i.toNat + x.toNat < s.cfg.memSize := (hstore x.toNat (Nat.le_refl _)).1
  refine ⟨_, exec_of_check_none hdump, rfl, fun u hcfg hmemory hi hreadI => ?_⟩
  have hiu : u.i = s.i := hi
  have hbyte : ∀ a, u.readByte a = (effectOf (.ldMemVx x) s).readByte a := fun a => by
    rw [State.readByte, State.readByte, hcfg, hmemory]
  have hload : checkOf (.ldVxMem x) u = none :=
    (checkOf_ldVxMem_eq_none_iff x u).2 ⟨hreadI, by rw [hiu, hcfg, effectOf_cfg]; exact hmem⟩
  refine ⟨_, exec_of_check_none hload, ?sameI, fun k hk => ?restored⟩
  case sameI => exact (State.setVFrom_i u.advance 0 _).trans hiu
  case restored =>
    calc (effectOf (.ldVxMem x) u).getV (BitVec.ofNat 4 k)
        = u.readByte (u.i.toNat + k) := getV_effectOf_ldVxMem x u hk
      _ = (effectOf (.ldMemVx x) s).readByte (s.i.toNat + k) := by rw [hiu, hbyte]
      _ = s.getV (BitVec.ofNat 4 k) := readByte_effectOf_ldMemVx hwf hmem hk

end Sys2Proof.Machine
end

section
/-! SUPPORT. The display (43_display.md R161 to R166): the pixels that a draw's sprite sets, what its blit does to them, and
that a second draw of the same sprite undoes the first. -/

namespace Sys2Proof.Machine

/-! ### The pixels of a sprite -/

/-- A sprite row laid from its first bit at column `cx` reaches the display's columns below `cx + 8` (R161). -/
theorem rowSets_iff (w : Nat) (row : Byte) (cx c : Nat) : rowSets w row cx 0 8 c = true ↔
    c < w ∧ cx ≤ c ∧ c < cx + 8 ∧ row.getLsbD (7 - (c - cx)) = true := by
  simp only [rowSets, spriteBit, Bool.and_eq_true, decide_eq_true_eq, Nat.add_zero]
  tauto

/-- Sprite row `j` of a draw is the byte `j` places after `I`, for each of its `n` rows (R161). -/
theorem State.getElem?_sprite_eq_some_iff (s : State) (n : Nibble) (j : Nat) (row : Byte) :
    (s.sprite n)[j]? = some row ↔ j < n.toNat ∧ s.readByte (s.i.toNat + j) = row := by
  simp [State.sprite, State.readBytes, State.base, List.getElem?_eq_some_iff]

/-- The blit of a draw lays its bits where the specification says (R161, R163, R164). -/
theorem spriteSets_sprite_iff (s : State) (cx cy : Nat) (n : Nibble) (c r : Nat) :
    spriteSets s.cfg cx cy (s.sprite n) c r = true ↔ SpriteSets s cx cy n.toNat c r := by
  have hrow : spriteSets s.cfg cx cy (s.sprite n) c r = true ↔
      (cy ≤ r ∧ r < s.cfg.dispH) ∧ ∃ row, (s.sprite n)[r - cy]? = some row ∧ rowSets s.cfg.dispW row cx 0 8 c = true := by
    rw [spriteSets, Bool.and_eq_true, decide_eq_true_eq]
    cases (s.sprite n)[r - cy]? <;> simp
  have hrows : cy ≤ r → (r - cy < n.toNat ↔ r < cy + n.toNat) := by omega
  simp only [hrow, State.getElem?_sprite_eq_some_iff, rowSets_iff, SpriteSets]
  constructor
  · rintro ⟨⟨hcy, hr⟩, row, ⟨hn, rfl⟩, hc, hcx, hcx8, hbit⟩
    exact ⟨hc, hr, hcx, hcx8, hcy, (hrows hcy).1 hn, hbit⟩
  · rintro ⟨hc, hr, hcx, hcx8, hcy, hn, hbit⟩
    exact ⟨⟨hcy, hr⟩, _, ⟨(hrows hcy).2 hn, rfl⟩, hc, hcx, hcx8, hbit⟩

/-! ### The blit of a draw -/

theorem State.pixel_blit {s : State} (h : dispWf s.cfg s.disp) (x y n : Nibble) (c r : Nat) :
    pixel (s.blit x y n).disp c r = true ↔
      ¬(pixel s.disp c r = true ↔ SpriteSets s (s.getV x).toNat (s.getV y).toNat n.toNat c r) := by
  rw [← spriteSets_sprite_iff, State.blit, blitSprite, pixel_blitRows s.cfg _ _ _ _ h, Bool.xor_iff_ne, ne_eq,
    Bool.eq_iff_iff]

theorem State.blit_collide_iff {s : State} (h : dispWf s.cfg s.disp) (x y n : Nibble) :
    (s.blit x y n).collide = true ↔
      ∃ c r, SpriteSets s (s.getV x).toNat (s.getV y).toNat n.toNat c r ∧ pixel s.disp c r = true := by
  rw [State.blit, blitSprite, collide_blitRows s.cfg _ _ _ ⟨s.disp, false, false⟩ h]
  simp [spriteSets_sprite_iff]

theorem State.blit_changed_iff (s : State) (x y n : Nibble) : (s.blit x y n).changed = true ↔
    ∃ c r, SpriteSets s (s.getV x).toNat (s.getV y).toNat n.toNat c r := by
  simp [State.blit, blitSprite, changed_blitRows, spriteSets_sprite_iff]

/-! ### The draw -/

theorem checkOf_drw_eq_none_iff (x y n : Nibble) (s : State) : checkOf (.drw x y n) s = none ↔
    s.readable [.v x, .v y, .i] = true ∧ ∀ k, k < n.toNat → s.i.toNat + k < s.cfg.memSize := by
  rw [checkOf, Option.or_eq_none_iff, precheck_loadFault_eq_none_iff, readCheck_eq_none_iff]; rfl

@[simp] theorem getV_VF_effectOf_drw (x y n : Nibble) (s : State) :
    (effectOf (.drw x y n) s).getV VF = flagByte (s.blit x y n).collide := State.getV_setV_same _ VF _

/-! ### What a later draw depends on -/

/-- Whether registers may be read depends on the policy and on their own marks only (R207). -/
theorem State.readable_eq_of_isWritten_eq {s t : State} {rs : List Source} (hcfg : t.cfg = s.cfg)
    (hmark : ∀ r ∈ rs, t.isWritten r = s.isWritten r) : t.readable rs = s.readable rs := by
  unfold State.readable
  rw [hcfg]
  cases s.cfg.resetReg with
  | zero => rfl
  | unwrittenFaults =>
    rw [Bool.eq_iff_iff, List.all_eq_true, List.all_eq_true]
    exact forall₂_congr fun r hr => by rw [hmark r hr]

/-- The pixels of a sprite depend on the parameters, on `I` and on memory only. -/
theorem spriteSets_iff_of_same {s t : State} (hcfg : t.cfg = s.cfg) (hi : t.i = s.i)
    (hbyte : ∀ a, t.readByte a = s.readByte a) (cx cy n c r : Nat) :
    SpriteSets t cx cy n c r ↔ SpriteSets s cx cy n c r := by
  rw [SpriteSets, SpriteSets, hcfg, hi, hbyte]

/-! ### The statements -/

/-- Settles O34: the buffer becomes the blank one. -/
theorem clearScreenClearsEveryPixel : Obligations.ClearScreenClearsEveryPixel :=
  fun s => ⟨_, exec_of_check_none rfl, pixel_blank s.cfg, blank_wf s.cfg, Bool.or_true s.dirty, rfl,
    keeps_effectOf .cls s⟩

/-- Settles O35, by what the blit does to the pixels, to the collision and to the change flag. -/
theorem drawInvertsSpritePixels : Obligations.DrawInvertsSpritePixels := by
  intro x y n s hread hmem hdisp
  have hcheck : checkOf (.drw x y n) s = none := (checkOf_drw_eq_none_iff x y n s).2 ⟨hread, hmem⟩
  refine ⟨_, exec_of_check_none hcheck, State.pixel_blit hdisp x y n, effectOf_dispWf (.drw x y n) hdisp, fun hset => ?hit,
    fun hset => ?miss, ?dirty, State.isWritten_setV_same _ VF _, rfl, keeps_effectOf (.drw x y n) s⟩
  case hit => rw [getV_VF_effectOf_drw, (State.blit_collide_iff hdisp x y n).2 hset]; rfl
  case miss =>
    rw [getV_VF_effectOf_drw, Bool.eq_false_iff.2 (mt (State.blit_collide_iff hdisp x y n).1 hset)]; rfl
  case dirty => rw [← s.blit_changed_iff]; exact Bool.or_eq_true_iff

/-- Settles O36: the first draw leaves all that the second depends on but the display, so O35 applies to both with the same
sprite; inverting the same pixels twice restores them, and the second draw collides where the first met a clear pixel. -/
theorem drawTwiceRestoresDisplay : Obligations.DrawTwiceRestoresDisplay := by
  intro x y n s hx hy hread hmem hdisp
  obtain ⟨t, ht, hpixel, htdisp, -, -, -, -, -, hkeep⟩ := drawInvertsSpritePixels x y n s hread hmem hdisp
  have hcfg : t.cfg = s.cfg := hkeep .cfg (by simp)
  have hi : t.i = s.i := hkeep .i (by simp)
  have hgetV : ∀ z, z ≠ VF → t.getV z = s.getV z := fun z hz => hkeep (.v z) (by simpa using hz)
  have hmark : ∀ r ∈ [Source.v x, .v y, .i], t.isWritten r = s.isWritten r := by
    have hVF : Source.v VF ∉ [Source.v x, .v y, .i] := by simp [hx.symm, hy.symm]
    exact fun r hr => hkeep (.written r) (by simpa using fun h : r = .v VF => hVF (h ▸ hr))
  have hsprite : ∀ c r, SpriteSets t (t.getV x).toNat (t.getV y).toNat n.toNat c r ↔
      SpriteSets s (s.getV x).toNat (s.getV y).toNat n.toNat c r := fun c r => by
    rw [hgetV x hx, hgetV y hy]
    exact spriteSets_iff_of_same hcfg hi (fun a => hkeep (.byte a) (by simp)) _ _ _ c r
  obtain ⟨u, hu, hpixel', hudisp, hhit, hmiss, -⟩ := drawInvertsSpritePixels x y n t
    ((State.readable_eq_of_isWritten_eq hcfg hmark).trans hread) (by rwa [hi, hcfg]) (by rwa [hcfg])
  simp only [hsprite] at hpixel' hhit hmiss
  have hcollide : (∃ c r, SpriteSets s (s.getV x).toNat (s.getV y).toNat n.toNat c r ∧ pixel t.disp c r = true) ↔
      ∃ c r, SpriteSets s (s.getV x).toNat (s.getV y).toNat n.toNat c r ∧ pixel s.disp c r = false :=
    exists₂_congr fun c r => and_congr_right fun hset => by simp [hpixel, hset]
  refine ⟨t, u, ht, hu, ?restored, ?flag⟩
  case restored =>
    refine display_ext s.cfg _ _ (hcfg ▸ hudisp) hdisp fun c r _ _ => Bool.eq_iff_iff.2 ?_
    rw [hpixel', hpixel]
    tauto
  case flag =>
    rw [← hcollide]
    refine ⟨fun hone => by_contra fun hnone => ?_, hhit⟩
    rw [hmiss hnone] at hone
    exact absurd hone (by decide)

end Sys2Proof.Machine
end

section
/-! SUPPORT. Keys and timers (44_timers_input.md R181 to R187): the key that the key skips test and their fault, the two ends
of the key wait, and the tone that a frame tick sets. -/

namespace Sys2Proof.Machine

/-! ### The key skips -/

theorem toNat_keyIndex (b : Byte) : (keyIndex b).toNat = b.toNat % 16 := BitVec.toNat_setWidth 4 b

/-- The key a register names is the one its low nibble indexes: below 16 that is the value itself (R187). -/
theorem State.keyDown_keyIndex (s : State) (b : Byte) :
    s.keyDown (keyIndex b) = s.inputs.keys[b.toNat % 16]'(Nat.mod_lt _ (by decide)) := by
  simp only [State.keyDown, toNat_keyIndex]

theorem keyCheck_of_out_of_range {c : Config} {b : Byte} (hindex : 16 ≤ b.toNat) (hpolicy : c.keyIndex = .fault) :
    keyCheck c b = some ⟨.keyIndexOutOfRange, none⟩ := if_pos ⟨hindex, hpolicy⟩

/-! ### The key wait -/

theorem State.rewind_advance (s : State) : s.advance.rewind = s := by
  rw [State.rewind, State.advance_pc, BitVec.add_sub_cancel]
  rfl

theorem effectOf_ldVxK_of_none (x : Nibble) {s : State} (h : s.pressed = none) : effectOf (.ldVxK x) s = s := by
  rw [effectOf, h]
  exact s.rewind_advance

theorem effectOf_ldVxK_of_some (x : Nibble) {s : State} {k : Nibble} (h : s.pressed = some k) :
    effectOf (.ldVxK x) s = s.advance.setV x (k.setWidth 8) := by
  rw [effectOf, h, State.takeKey_some]

/-! ### The tone -/

/-- A frame tick sets the tone by the sound timer it has counted down (R210, R215). -/
theorem State.frameTick_tone (s : State) : s.frameTick.tone = (countDown s.st != 0#8) := by
  simp [State.frameTick]

/-! ### The statements -/

/-- Settles O37: the checks pass exactly below 16 or under `mask`, and the two skips go by the same key and its negation. -/
theorem keySkipsTestSampledKey : Obligations.KeySkipsTestSampledKey := by
  intro x s hread
  have hreadCheck : s.readCheck [.v x] = none := (readCheck_eq_none_iff s _).2 hread
  refine ⟨fun hindex => ?skips, fun hindex hpolicy => ?faults⟩
  case skips =>
    have hcheck : (s.readCheck [.v x]).or (keyCheck s.cfg (s.getV x)) = none :=
      Option.or_eq_none_iff.2 ⟨hreadCheck, (keyCheck_eq_none_iff s.cfg _).2 hindex⟩
    have hkey := s.keyDown_keyIndex (s.getV x)
    obtain ⟨t, ht, hskp⟩ := exec_skips (i := .skp x) hcheck rfl (Bool.eq_iff_iff.1 hkey)
    obtain ⟨u, hu, hsknp⟩ := exec_skips (i := .sknp x) hcheck rfl (by rw [Bool.not_eq_true', hkey])
    exact ⟨s.inputs.keys, t, u, fun _ h => congrArg Inputs.keys (State.inputs_of_sample h), ht, hskp, hu, hsknp⟩
  case faults =>
    have hcheck : (s.readCheck [.v x]).or (keyCheck s.cfg (s.getV x)) = some ⟨.keyIndexOutOfRange, none⟩ := by
      rw [hreadCheck, Option.none_or, keyCheck_of_out_of_range hindex hpolicy]
    exact ⟨exec_takes_fault (i := .skp x) hcheck, exec_takes_fault (i := .sknp x) hcheck⟩

/-- Settles O38, by the two answers of the pressed-key choice: nothing just where no key is down, else a key that is down. -/
theorem keyWaitRepeatsOrTakesKey : Obligations.KeyWaitRepeatsOrTakesKey := by
  refine fun x s => ⟨s.inputs.keys, _, fun _ h => congrArg Inputs.keys (State.inputs_of_sample h),
    exec_of_check_none rfl, fun hnone => ?repeats, fun ⟨k, hk⟩ => ?takes⟩
  case repeats =>
    have hpressed : s.pressed = none := (choosePressed_eq_none_iff _ _).2 hnone
    rw [effectOf_ldVxK_of_none x hpressed]
    exact Keeps.refl s
  case takes =>
    cases hpressed : s.pressed with
    | none =>
      have hup := (choosePressed_eq_none_iff _ _).1 hpressed k
      rw [hk] at hup
      cases hup
    | some j =>
      rw [effectOf_ldVxK_of_some x hpressed]
      exact ⟨j, j.setWidth 8, choosePressed_down hpressed, BitVec.toNat_setWidth_of_le (by decide),
        wroteV_advance_setV s x _⟩

/-- Settles O40, from the two effects and their frames. -/
theorem delayTimerTransfers : Obligations.DelayTimerTransfers := by
  refine fun x s => ⟨fun hread => ?readTimer, fun hread => ?setTimer⟩
  case readTimer =>
    have hcheck : checkOf (.ldVxDt x) s = none := (readCheck_eq_none_iff s _).2 hread
    exact ⟨_, exec_of_check_none hcheck, wroteV_advance_setV s x s.dt⟩
  case setTimer =>
    have hcheck : checkOf (.ldDtVx x) s = none := (readCheck_eq_none_iff s _).2 hread
    exact ⟨_, exec_of_check_none hcheck, rfl, rfl, rfl, keeps_effectOf (.ldDtVx x) s⟩

/-- Settles O41: the frame tick counts down before it sets the tone, so a timer of 1 is 0 by then. -/
theorem soundTimerIsSet : Obligations.SoundTimerIsSet := by
  intro x s hread
  have hcheck : checkOf (.ldStVx x) s = none := (readCheck_eq_none_iff s _).2 hread
  have hst : (effectOf (.ldStVx x) s).st = s.getV x := rfl
  refine ⟨_, exec_of_check_none hcheck, hst, rfl, rfl, keeps_effectOf (.ldStVx x) s, fun hone => ?_⟩
  rw [State.frameTick_tone, hst, hone]
  rfl

end Sys2Proof.Machine
end

section
/-! SUPPORT. Execution faults and the quit (60_exceptions.md R201 to R207, R217): a fault is all that an instruction which
takes one does, only the check of R207 raises `UnwrittenRead`, and an illegal word takes its fault. -/

namespace Sys2Proof.Machine

/-! ### Faults are precise -/

/-- No instruction's effect sets `HALT`: only its fault does (R206). -/
@[simp] theorem effectOf_halt (i : Instr) (s : State) : (effectOf i s).halt = s.halt :=
  keeps_effectOf i s .halt (by cases i <;> simp [changes])

/-- No instruction's effect emits anything (R206). -/
@[simp] theorem effectOf_outputs (i : Instr) (s : State) : (effectOf i s).outputs = s.outputs :=
  keeps_effectOf i s .outputs (by cases i <;> simp [changes])

/-! ### Reads of a register that nothing has written -/

/-- Under the default policy every register may be read (R34, R207). -/
theorem State.readable_of_zero {s : State} (h : s.cfg.resetReg = .zero) (rs : List Source) : s.readable rs = true := by
  rw [State.readable, h]

/-- Under `unwritten_faults` a list with an unwritten register may not be read (R207). -/
theorem State.readable_of_unwritten {s : State} {rs : List Source} (hpolicy : s.cfg.resetReg = .unwrittenFaults)
    (h : ∃ r ∈ rs, s.isWritten r = false) : s.readable rs = false := by
  obtain ⟨r, hr, hunwritten⟩ := h
  rw [State.readable, hpolicy]
  exact List.all_eq_false.2 ⟨r, hr, by simp [hunwritten]⟩

theorem kind_of_loadFault {c : Config} {a : Nat} {r : Raise} (h : loadFault c a = some r) :
    r.kind = .memoryOutOfRange := by
  unfold loadFault at h
  split at h <;> cases h
  rfl

theorem kind_of_storeFault {c : Config} {a : Nat} {r : Raise} (h : storeFault c a = some r) :
    r.kind = .memoryOutOfRange ∨ r.kind = .fontRegionWrite := by
  unfold storeFault at h
  split at h
  · cases h; exact .inl rfl
  · split at h <;> cases h
    exact .inr rfl

theorem kind_of_keyCheck {c : Config} {b : Byte} {r : Raise} (h : keyCheck c b = some r) :
    r.kind = .keyIndexOutOfRange := by
  unfold keyCheck at h
  split at h <;> cases h
  rfl

theorem kind_of_stackCheck {s : State} {r : Raise} (h : s.stackCheck = some r) : r.kind = .stackOverflow := by
  unfold State.stackCheck at h
  split at h <;> cases h
  rfl

/-- What a precheck reports, the check of one of its bytes has reported (R144). -/
theorem exists_of_precheck_eq_some {f : Nat → Option Raise} {a m : Nat} {r : Raise} (h : precheck f a m = some r) :
    ∃ k, f (a + k) = some r := by
  obtain ⟨k, -, hk⟩ := List.exists_of_findSome?_eq_some h
  exact ⟨k, hk⟩

/-- Where the registers an instruction reads may be read, it raises another fault or none (R207). -/
theorem kind_ne_unwrittenRead_of_readable {i : Instr} {s : State} {r : Raise} (hread : s.readable (reads i) = true)
    (h : checkOf i s = some r) : r.kind ≠ .unwrittenRead := by
  have hpass : s.readCheck (reads i) = none := (readCheck_eq_none_iff s _).2 hread
  have hother {o : Option Raise} (h : (s.readCheck (reads i)).or o = some r) : o = some r := by
    rwa [hpass, Option.none_or] at h
  match i with
  | .sys _ => cases h; decide
  | .call _ => rw [kind_of_stackCheck h]; decide
  | .skp _ | .sknp _ => rw [kind_of_keyCheck (hother h)]; decide
  | .drw _ _ _ | .ldVxMem _ =>
    obtain ⟨k, hk⟩ := exists_of_precheck_eq_some (hother h)
    rw [kind_of_loadFault hk]; decide
  | .ldB _ | .ldMemVx _ =>
    obtain ⟨k, hk⟩ := exists_of_precheck_eq_some (hother h)
    obtain hkind | hkind := kind_of_storeFault hk <;> rw [hkind] <;> decide
  | .cls | .ret | .jp _ | .ldImm _ _ | .ldI _ | .rnd _ _ | .ldVxK _ => cases h
  | .seImm _ _ | .sneImm _ _ | .seReg _ _ | .sneReg _ _ | .addImm _ _ | .ldReg _ _ | .orReg _ _ | .andReg _ _
  | .xorReg _ _ | .addReg _ _ | .subReg _ _ | .shr _ _ | .subnReg _ _ | .shl _ _ | .jpV0 _ | .ldVxDt _ | .ldDtVx _
  | .ldStVx _ | .addI _ | .ldF _ => cases hpass.symm.trans h

/-! ### Delivery from the queue -/

theorem keeps_setPending (s : State) (es : List Event) : Keeps [.pending] s { s with pending := es } := by
  intro p hp; cases p <;> first | rfl | simp at hp

/-! ### The statements -/

/-- Settles O8: an instruction ends in its fault, which stops the block, or in its effect, which neither stops it nor emits. -/
theorem faultsArePrecise : Obligations.FaultsArePrecise := by
  intro i s t hrun h
  obtain ⟨r, -, rfl⟩ | ⟨-, rfl⟩ := exec_cases h
  · exact ⟨fun _ => ⟨_, rfl, rfl, tookFault_enterFault s _ r⟩, nofun⟩
  · exact ⟨fun hstop => absurd ((effectOf_halt i s).trans hrun) hstop, fun _ => effectOf_outputs i s⟩

/-- Settles O11: the check of R207 comes first, and no other check raises its fault. -/
theorem unwrittenReadsAreCaught : Obligations.UnwrittenReadsAreCaught := by
  refine fun i s => ⟨fun hpolicy hunwritten => ?caught, fun hpolicy hrun t record h hfault => ?never⟩
  case caught =>
    exact exec_takes_fault (checkOf_of_not_readable i s (State.readable_of_unwritten hpolicy hunwritten))
  case never =>
    obtain ⟨r, hcheck, rfl⟩ | ⟨-, rfl⟩ := exec_cases h
    · have hkind := kind_ne_unwrittenRead_of_readable (State.readable_of_zero hpolicy _) hcheck
      cases hfault
      exact hkind
    · rw [effectOf_halt, hrun] at hfault
      cases hfault

/-- Settles O7: the word of the two bytes at `PC` is one the decoder refuses. -/
theorem illegalWordTakesUnknownOpcode : Obligations.IllegalWordTakesUnknownOpcode := by
  intro s s' w hs hfetch hbytes hillegal
  obtain rfl : w = s'.fetchWord := BitVec.eq_of_toNat_eq (hbytes.trans (toNat_wordOfBytes _ _).symm)
  have hdec := (decoderRefusesExactlyIllegalWords s'.fetchWord _).2 ⟨hillegal, rfl⟩
  exact ⟨_, (step_of_startsOpcode hs).trans (runOpcode_of_illegal hfetch hdec), tookFault_enterFault s' _ _⟩

/-- Settles O10: the quit leaves the queue and sets `HALT`. -/
theorem quitOnlyStopsTheBlock : Obligations.QuitOnlyStopsTheBlock := by
  intro s rest hrun hpending
  have hkeeps := (keeps_setPending s rest).trans (keeps_quitNow { s with pending := rest })
  exact ⟨_, step_of_quitEvent hrun hpending, rfl, rfl, hkeeps.mono (by simp)⟩

end Sys2Proof.Machine
end

section
/-! SUPPORT. The frame tick and the timers (60_exceptions.md R210 to R215): what a frame tick leaves in the timers and emits,
and what a timer holds after a run. -/

namespace Sys2Proof.Machine

/-! ### What a frame tick leaves -/

/-- One count takes one off, and leaves 0 at 0 (R211). -/
theorem toNat_countDown (b : Byte) : (countDown b).toNat = b.toNat - 1 := by
  unfold countDown
  split
  · rw [BitVec.toNat_sub_of_le (BitVec.le_def.2 ‹_›)]; rfl
  · omega

theorem State.frameTick_dt (s : State) : s.frameTick.dt = countDown s.dt := by
  simp [State.frameTick]

theorem State.frameTick_st (s : State) : s.frameTick.st = countDown s.st := by
  simp [State.frameTick]

/-- The display is clean after a frame tick (R214). -/
theorem State.frameTick_dirty (s : State) : s.frameTick.dirty = false := s.tickTimers.presentIfDirty_dirty

theorem State.frameTick_tone_iff (s : State) : s.frameTick.tone = true ↔ s.frameTick.st ≠ 0#8 := by
  rw [State.frameTick_tone, State.frameTick_st, bne_iff_ne]

/-- A frame tick emits the tone last (R210, R215). -/
theorem State.frameTick_outputs (s : State) :
    s.frameTick.outputs = s.tickTimers.presentIfDirty.outputs ++ [.setTone s.frameTick.tone] := rfl

/-- A frame tick over a dirty display emits the buffer first (R214). -/
theorem State.frameTick_outputs_of_dirty {s : State} (h : s.dirty = true) :
    s.frameTick.outputs = s.outputs ++ [.present s.disp, .setTone s.frameTick.tone] := by
  rw [State.frameTick_outputs, s.tickTimers.presentIfDirty_of_dirty h]
  simp

theorem State.frameTick_outputs_of_clean {s : State} (h : s.dirty = false) :
    s.frameTick.outputs = s.outputs ++ [.setTone s.frameTick.tone] := by
  rw [State.frameTick_outputs, s.tickTimers.presentIfDirty_of_clean h]
  rfl

/-! ### A timer along a run -/

theorem deliverAll_cons_eq_next_iff {e : Event} {es : List Event} {s t : State} :
    deliverAll (e :: es) s = .next t ↔ ∃ u, deliver e s = .next u ∧ deliverAll es u = .next t := by
  rw [deliverAll]
  cases deliver e s <;> simp

/-- A block that is not running is as it was after any run (R38). -/
theorem deliverAll_of_stopped (es : List Event) {s : State} (h : s.halt ≠ .running) : deliverAll es s = .next s := by
  induction es with
  | nil => rfl
  | cons e es ih => exact deliverAll_cons_eq_next_iff.2 ⟨s, deliver_of_stopped e h, ih⟩

/-- A run that ends running began running. -/
theorem running_of_deliverAll {es : List Event} {s t : State} (h : deliverAll es s = .next t)
    (hrun : t.halt = .running) : s.halt = .running := by
  by_contra hstop
  rw [deliverAll_of_stopped es hstop] at h
  cases h
  exact hstop hrun

/-- What an event that leaves the block running has done: the effect of the instruction fetched, or a frame tick. -/
theorem deliver_cases_of_running {e : Event} {s t : State} (h : deliver e s = .next t) (hrun : t.halt = .running) :
    (∃ inp i, e = .opcodeTick inp ∧ decodeWord s.fetchWord = .ok i ∧ t = effectOf i (s.sampled inp)) ∨
      (e = .frameTick ∧ t = s.frameTick) := by
  have hbegan : s.halt = .running :=
    running_of_deliverAll (deliverAll_cons_eq_next_iff.2 ⟨t, h, rfl⟩ : deliverAll [e] s = .next t) hrun
  rw [deliver, hbegan] at h
  cases e with
  | opcodeTick inp =>
    obtain ⟨w, r, rfl⟩ | ⟨i, -, hdec, -, rfl⟩ := runOpcode_cases h
    · cases hrun
    · exact .inl ⟨inp, i, rfl, hdec, rfl⟩
  | frameTick => cases h; exact .inr ⟨rfl, rfl⟩
  | quit => cases h; cases hrun

theorem frameTicks_opcodeTick_cons (inp : Inputs) (es : List Event) :
    frameTicks (.opcodeTick inp :: es) = frameTicks es := by
  simp [frameTicks]

theorem frameTicks_frameTick_cons (es : List Event) : frameTicks (.frameTick :: es) = frameTicks es + 1 := by
  simp [frameTicks]

/-- `timer` reads a byte that a frame tick counts down, and that of all instructions only those in `sets` write (R211). -/
structure IsTimer (timer : State → Byte) (sets : Instr → Prop) : Prop where
  frameTick_eq : ∀ s, timer s.frameTick = countDown (timer s)
  sampled_eq : ∀ s inp, timer (s.sampled inp) = timer s
  effectOf_eq : ∀ i s, ¬sets i → timer (effectOf i s) = timer s

theorem dt_mem_changes_iff (i : Instr) (s : State) : .dt ∈ changes i s ↔ ∃ x, i = .ldDtVx x := by
  cases i <;> simp [changes]

theorem isTimer_dt : IsTimer State.dt (fun i => ∃ x, i = .ldDtVx x) where
  frameTick_eq := State.frameTick_dt
  sampled_eq := State.sampled_dt
  effectOf_eq i s hi := keeps_effectOf i s .dt fun h => hi ((dt_mem_changes_iff i s).1 h)

theorem isTimer_st : IsTimer State.st (fun i => ∃ x, i = .ldStVx x) where
  frameTick_eq := State.frameTick_st
  sampled_eq := State.sampled_st
  effectOf_eq i s hi := keeps_effectOf i s .st fun h => hi ((st_mem_changes_iff i s).1 h)

/-- Along a run that ends running and never sets it, a timer loses one for each frame tick, down to 0 (R212). -/
theorem IsTimer.toNat_deliverAll {timer : State → Byte} {sets : Instr → Prop} (htimer : IsTimer timer sets)
    {es : List Event} {s t : State} (h : deliverAll es s = .next t) (hrun : t.halt = .running)
    (havoid : RunAvoids sets es s) : (timer t).toNat = (timer s).toNat - frameTicks es := by
  induction es generalizing s with
  | nil => cases h; rfl
  | cons e es ih =>
    obtain ⟨u, hu, hrest⟩ := deliverAll_cons_eq_next_iff.1 h
    obtain ⟨hnow, hlater⟩ := havoid
    have hend : (timer t).toNat = (timer u).toNat - frameTicks es := ih hrest (hlater u hu)
    obtain ⟨inp, i, rfl, hdec, rfl⟩ | ⟨rfl, rfl⟩ := deliver_cases_of_running hu (running_of_deliverAll hrest hrun)
    · rw [hend, htimer.effectOf_eq i _ (hnow rfl i hdec), htimer.sampled_eq, frameTicks_opcodeTick_cons]
    · rw [hend, htimer.frameTick_eq, toNat_countDown, frameTicks_frameTick_cons, Nat.sub_sub, Nat.add_comm]

/-! ### The statements -/

/-- Settles O44, for each timer by induction on the run. -/
theorem timersSaturateAtZero : Obligations.TimersSaturateAtZero :=
  fun _ _ _ h hrun => ⟨isTimer_dt.toNat_deliverAll h hrun, isTimer_st.toNat_deliverAll h hrun⟩

/-- Settles O42, by what the frame tick leaves and its frame. -/
theorem frameTickCountsDownAndSetsTone : Obligations.FrameTickCountsDownAndSetsTone := by
  intro s rest hrun hpending
  have hkeeps := (keeps_setPending s rest).trans (keeps_frameTick { s with pending := rest })
  refine ⟨_, step_of_frameTick hrun hpending, ?dt, ?st, State.frameTick_tone_iff _, ⟨_, State.frameTick_outputs _⟩,
    keeps_frameTick { s with pending := rest } .pending (by simp), hkeeps.mono (by simp)⟩
  case dt => rw [State.frameTick_dt, toNat_countDown]
  case st => rw [State.frameTick_st, toNat_countDown]

/-- Settles O43, by the two forms of what a frame tick emits. -/
theorem frameTickPresentsDirtyDisplay : Obligations.FrameTickPresentsDirtyDisplay :=
  fun _ _ hrun hpending => ⟨_, step_of_frameTick hrun hpending, State.frameTick_dirty _,
    fun h => State.frameTick_outputs_of_dirty h, fun h => State.frameTick_outputs_of_clean h⟩

end Sys2Proof.Machine
end

section
/-! SUPPORT. The load contract (70_reset_and_hazards.md R233, R234): what memory holds before a ROM byte is placed, and what
a load of a ROM that fits leaves. -/

namespace Sys2Proof.Machine

/-! ### Memory before the ROM is placed -/

theorem inFont_eq_true_iff (c : Config) (a : Nat) : inFont c a = true ↔
    c.fontBase ≤ a ∧ a < c.fontBase + 16 * c.glyphBytes := by
  rw [inFont, Bool.and_eq_true, decide_eq_true_eq, decide_eq_true_eq, Config.fontBytes]

/-- Every address of the initial state reads as its load contents (R55, R233). -/
theorem State.initial_readByte (c : Config) (a : Nat) : (State.initial c).readByte a = Memory.unlisted c a := rfl

/-- Inside the font region the load contents are the font's bytes, all of which exist (R233). -/
theorem Memory.some_unlisted_of_inFont {c : Config} {a : Nat} (hlen : c.font.length = c.fontBytes)
    (h : c.fontBase ≤ a ∧ a < c.fontBase + 16 * c.glyphBytes) :
    some (Memory.unlisted c a) = c.font[a - c.fontBase]? := by
  have hlt : a - c.fontBase < c.font.length := by rw [hlen, Config.fontBytes]; omega
  rw [Memory.unlisted, if_pos ((inFont_eq_true_iff c a).2 h), List.getD_eq_getElem?_getD, List.getElem?_eq_getElem hlt,
    Option.getD_some]

/-- Outside the font region the load contents are zero (R233). -/
theorem Memory.unlisted_of_not_inFont {c : Config} {a : Nat}
    (h : ¬(c.fontBase ≤ a ∧ a < c.fontBase + 16 * c.glyphBytes)) : Memory.unlisted c a = 0#8 :=
  if_neg (mt (inFont_eq_true_iff c a).1 h)

/-! ### The load -/

theorem load_of_fits {c : Config} {rom : List Byte} (h : rom.length ≤ c.programEnd - c.progOrigin) :
    load c rom = .ok ((State.initial c).storeBytes c.progOrigin rom) := if_neg (Nat.not_lt.2 h)

theorem load_of_too_large {c : Config} {rom : List Byte} (h : c.programEnd - c.progOrigin < rom.length) :
    load c rom = .error .romTooLarge := if_pos h

theorem blockInv_storeBytes {s : State} (h : BlockInv s) (a : Nat) (bs : List Byte) : BlockInv (s.storeBytes a bs) := by
  obtain ⟨hcfg, hmem, hstack, hdisp⟩ := h
  exact ⟨hcfg, Memory.setMany_wf _ _ _ _ hmem, hstack, hdisp⟩

/-- Bytes stored inside memory read back verbatim. -/
theorem State.some_readByte_storeBytes {s : State} {a k : Nat} {bs : List Byte} (hwf : Memory.wf s.cfg s.mem)
    (hfit : a + bs.length ≤ s.cfg.memSize) (hk : k < bs.length) : some ((s.storeBytes a bs).readByte (a + k)) = bs[k]? := by
  rw [s.readByte_storeBytes a bs hwf hfit, if_pos (Nat.le_add_right a k), Nat.add_sub_cancel_left,
    List.getElem?_eq_getElem hk, Option.getD_some]

/-- The program origin fits the 16-bit `PC` (R26). -/
theorem toNat_initial_pc {c : Config} (h : c.Wf) : (State.initial c).pc.toNat = c.progOrigin := by
  obtain ⟨hmem, -, -, hregion, hend, -⟩ := h
  exact Nat.mod_eq_of_lt (by omega)

/-- Settles O46: the ROM by the read of what was stored, every other address by what it held before, and the size by the
load's one check. -/
theorem loadPlacesRomAndFont : Obligations.LoadPlacesRomAndFont := by
  refine fun c rom hwf => ⟨fun hfits => ?fits, load_of_too_large⟩
  have hinv := blockInv_initial hwf
  have hpc := toNat_initial_pc hwf
  obtain ⟨-, -, hfont, hregion, hend, -⟩ := hwf
  have hroom : c.progOrigin + rom.length ≤ c.memSize := by omega
  refine ⟨_, load_of_fits hfits, rfl, hpc, rfl, rfl, blockInv_storeBytes hinv _ _,
    fun k hk => State.some_readByte_storeBytes (Memory.wf_nil c) hroom hk, fun a hout => ?outside⟩
  rw [State.readByte_storeBytes_outside _ _ _ hout, State.initial_readByte]
  exact ⟨Memory.some_unlisted_of_inFont hfont, Memory.unlisted_of_not_inFont⟩

end Sys2Proof.Machine
end

section
/-! SUPPORT. The ideal-clock schedule (70_reset_and_hazards.md R240): a run always answers a next state, and the clock state
of an iteration in the terms of R36. -/

namespace Sys2Proof.Machine

theorem deliver_of_running (e : Event) {s : State} (h : s.halt = .running) : deliver e s = applyEvent e s := by
  rw [deliver, h]

theorem deliver_progress (e : Event) (s : State) : ∃ t, deliver e s = .next t := by
  by_cases h : s.halt = .running
  · rw [deliver_of_running e h]; exact applyEvent_progress e s
  · exact ⟨s, deliver_of_stopped e h⟩

/-- Every run answers a next state, since every event of it does (R38). -/
theorem deliverAll_progress (es : List Event) (s : State) : ∃ t, deliverAll es s = .next t := by
  induction es generalizing s with
  | nil => exact ⟨s, rfl⟩
  | cons e es ih =>
    obtain ⟨u, hu⟩ := deliver_progress e s
    obtain ⟨t, ht⟩ := ih u
    exact ⟨t, deliverAll_cons_eq_next_iff.2 ⟨u, hu, ht⟩⟩

/-- An iteration of a running block is the run of the due events from the advanced clock (R240). -/
theorem iteration_of_running (hz passed : Nat) (inp : Inputs) {s : State} (h : s.halt = .running) :
    iteration hz passed inp s = deliverAll (dueEvents (s.clock.pass passed) inp)
      { s with clock := (s.clock.pass passed).advance s.cfg hz } := by
  rw [iteration, h]

theorem dueEvents_eq (k : Clock) (inp : Inputs) : dueEvents k inp =
    (if k.opcodeDue ≤ k.elapsed then [.opcodeTick inp] else []) ++
      (if k.frameDue ≤ k.elapsed then [.frameTick] else []) := by
  simp only [dueEvents, Clock.opcodeIsDue, Clock.frameIsDue, decide_eq_true_eq]

theorem Clock.advance_opcodeDue (k : Clock) (c : Config) (hz : Nat) : (k.advance c hz).opcodeDue =
    if k.opcodeDue ≤ k.elapsed then k.opcodeDue + c.frameHz else k.opcodeDue := by
  simp only [Clock.advance, Clock.opcodeIsDue, opcodePeriod, decide_eq_true_eq]

theorem Clock.advance_frameDue (k : Clock) (c : Config) (hz : Nat) : (k.advance c hz).frameDue =
    if k.frameDue ≤ k.elapsed then k.frameDue + hz else k.frameDue := by
  simp only [Clock.advance, Clock.frameIsDue, framePeriod, decide_eq_true_eq]

/-- Settles O48: the run is that of the due events, and no event of it touches the clock. -/
theorem iterationIsARunOfDueEvents : Obligations.IterationIsARunOfDueEvents := by
  intro hz passed inp s hrun
  obtain ⟨t, ht⟩ := deliverAll_progress (dueEvents (s.clock.pass passed) inp)
    { s with clock := (s.clock.pass passed).advance s.cfg hz }
  exact ⟨_, _, t, (iteration_of_running hz passed inp hrun).trans ht, ht, deliverAll_clock ht, rfl, dueEvents_eq _ inp,
    Clock.advance_opcodeDue _ _ hz, Clock.advance_frameDue _ _ hz⟩

end Sys2Proof.Machine
end

section
/-! SUPPORT. Rest (70_reset_and_hazards.md R244): what being at rest depends on, and what each tick does to a block at rest. -/

namespace Sys2Proof.Machine

/-- Rest speaks of the status, the parameters, `PC` and the memory only. -/
theorem AtRest.of_keeps {l : List Part} {s t : State} (h : AtRest s) (hkeeps : Keeps l s t) (hhalt : .halt ∉ l)
    (hcfg : .cfg ∉ l) (hpc : .pc ∉ l) (hbyte : ∀ a, .byte a ∉ l) : AtRest t := by
  have hhalt' : t.halt = s.halt := hkeeps .halt hhalt
  have hcfg' : t.cfg = s.cfg := hkeeps .cfg hcfg
  have hpc' : t.pc = s.pc := hkeeps .pc hpc
  have hbyte' (a : Nat) : t.readByte a = s.readByte a := hkeeps (.byte a) (hbyte a)
  unfold AtRest Fetchable State.fetchWord
  rwa [hhalt', hcfg', hpc', hbyte', hbyte']

theorem keeps_sampled (s : State) (inp : Inputs) : Keeps [.sample] s (s.sampled inp) := by
  intro p hp
  cases p with
  | sample => simp at hp
  | _ => rfl

theorem AtRest.sampled {s : State} (h : AtRest s) (inp : Inputs) : AtRest (s.sampled inp) :=
  h.of_keeps (keeps_sampled s inp) (by simp) (by simp) (by simp) (by simp)

theorem AtRest.frameTick {s : State} (h : AtRest s) : AtRest s.frameTick :=
  h.of_keeps (keeps_frameTick s) (by simp) (by simp) (by simp) (by simp)

/-- A jump to the address it stands at has no effect at all. -/
theorem effectOf_jp_of_self {s : State} {nnn : Imm12} (h : absolute nnn = s.pc) : effectOf (.jp nnn) s = s := by
  rw [effectOf, h]; rfl

/-- The opcode of a block at rest changes nothing (R244). -/
theorem AtRest.runOpcode_eq {s : State} (h : AtRest s) : runOpcode s = .next s := by
  obtain ⟨-, hfetch, hjump, hself⟩ := h
  rw [runOpcode_of_decode hfetch hjump, exec_of_check_none rfl, effectOf_jp_of_self hself]

theorem AtRest.running {s : State} (h : AtRest s) : s.halt = .running := h.1

/-- Settles O49: an opcode tick leaves the state with its inputs sampled, and the frame tick's frame spares what rest
depends on. -/
theorem restPersists : Obligations.RestPersists := by
  refine fun s h => ⟨fun inp => ⟨s.sampled inp, ?_, keeps_sampled s inp, h.sampled inp⟩,
    s.frameTick, deliver_of_running .frameTick h.running, keeps_frameTick s, h.frameTick⟩
  exact (deliver_of_running _ h.running).trans (h.sampled inp).runOpcode_eq

end Sys2Proof.Machine
end

section
/-! SUPPORT. Fairness (70_reset_and_hazards.md R242): a fair sequence holds any number of frame ticks, so that the delay
timer, a byte, runs out. -/

namespace Sys2Proof.Machine

/-- The first `n` events of an infinite sequence, oldest first. -/
def firstEvents (events : Nat → Event) (n : Nat) : List Event := (List.range n).map events

theorem frameTicks_firstEvents_mono (events : Nat → Event) {n m : Nat} (h : n ≤ m) :
    frameTicks (firstEvents events n) ≤ frameTicks (firstEvents events m) :=
  ((List.range_sublist.2 h).map events).countP_le

theorem frameTicks_firstEvents_succ {events : Nat → Event} {n : Nat} (h : events n = .frameTick) :
    frameTicks (firstEvents events (n + 1)) = frameTicks (firstEvents events n) + 1 := by
  simp [frameTicks, firstEvents, List.range_succ, h]

/-- A fair sequence holds as many frame ticks as one asks for (R242). -/
theorem Fair.exists_le_frameTicks {events : Nat → Event} (h : Fair events) (k : Nat) :
    ∃ n, k ≤ frameTicks (firstEvents events n) := by
  induction k with
  | zero => exact ⟨0, Nat.zero_le _⟩
  | succ k ih =>
    obtain ⟨n, hn⟩ := ih
    obtain ⟨m, hnm, hm⟩ := h.2 n
    refine ⟨m + 1, ?_⟩
    rw [frameTicks_firstEvents_succ hm]
    exact Nat.succ_le_succ (hn.trans (frameTicks_firstEvents_mono events hnm))

/-- Settles O45: after 255 frame ticks a timer that nothing sets holds 0, whatever byte it began with (R212). -/
theorem fairRunCountsDelayTimerToZero : Obligations.FairRunCountsDelayTimerToZero := by
  intro events hfair
  obtain ⟨n, hn⟩ := hfair.exists_le_frameTicks 255
  refine ⟨n, fun m hnm s t hrun hhalt havoid => BitVec.eq_of_toNat_eq ?_⟩
  have hcount : t.dt.toNat = s.dt.toNat - frameTicks (firstEvents events m) :=
    isTimer_dt.toNat_deliverAll hrun hhalt havoid
  have hticks : 255 ≤ frameTicks (firstEvents events m) := hn.trans (frameTicks_firstEvents_mono events hnm)
  have hbyte : s.dt.toNat < 256 := s.dt.isLt
  rw [hcount, BitVec.toNat_ofNat]
  omega

end Sys2Proof.Machine
end
